-- ==== Sys2Proof/Word.lean ====
section
/-! DEFINITION. The words the block handles: branch addresses, weights, request words and branch outcomes. -/

namespace Sys2Proof

/-- A u32: a branch address `pc` (00_scope.md R6) or a numeric parameter (10_state.md R24). -/
abbrev Word := BitVec 32

/-- One weight of the perceptron table: `WB = 32` bits, two's complement (10_state.md R34). -/
abbrev Weight := BitVec 32

/-- The 35-bit request word (30_encoding.md R70). -/
abbrev Request := BitVec 35

/-- A branch outcome or a prediction, one bit: `true` is Taken (`T`, 1) and `false` is NotTaken (`N`, 0)
(00_scope.md R6, R16). -/
abbrev BranchOutcome := Bool

end Sys2Proof
end

