-- ==== Sys2Proof/Config.lean ====
section
/-! DEFINITION. The build-time parameters (00_scope.md R2, R6 to R11), as the inputs to reset that they are
(10_state.md R24), and the free values of the state before a reset. -/

namespace Sys2Proof

/-- `SCHEME` (00_scope.md R2). Its 2-bit code is `Scheme.bits` of Decode.lean. -/
inductive Scheme where
  | static
  | gshare
  | tournament
  | perceptron
deriving DecidableEq, Repr

/-- The four states of a saturating counter, from StrongNotTaken to StrongTaken (40_counter.md R100).
Its 2-bit code is `Counter.bits` of Machine/Counter.lean. -/
inductive Counter where
  | snt
  | wnt
  | wt
  | st
deriving DecidableEq, Repr

/-- `PERC_HASH : u32 → u32` as plain data (00_scope.md R9): the identity, which is its default, but for the
addresses listed; of two entries for one address the first counts. Every total function of a u32 is such a
list, and the reading of one is `HashTable.apply` of Machine/Operands.lean.
DESIGN CHOICE (log 8), safe: no function of a u32 is left out. -/
abbrev HashTable := List (Word × Word)

/-- The parameters given to reset (00_scope.md, the summary table), each numeric one a u32 field
(10_state.md R24). A required parameter may be missing (`none`), which is what the check of
60_exceptions.md R232 looks for; a parameter with a default is never missing.
DEDUCED (log 13), safe: nothing R232 accepts or refuses is out of reach. -/
structure Config where
  /-- `SCHEME`; `none` when it is missing or not one of the four. -/
  scheme : Option Scheme
  /-- `HB` (R7). -/
  hb : Option Word := none
  /-- `TG` (R8). -/
  tg : Option Word := none
  /-- `TL` (R8). -/
  tl : Option Word := none
  /-- `PI` (R8). -/
  pi : Option Word := none
  /-- `H` (R9). -/
  h : Option Word := none
  /-- `N` (R9). -/
  n : Option Word := none
  /-- `THETA` (R9). -/
  theta : Option Word := none
  /-- `PERC_HASH` (R9), default the identity. -/
  percHash : HashTable := []
  /-- `INIT_GS` (R10), default WNT. -/
  initGs : Counter := .wnt
  /-- `INIT_TG` (R10), default WNT. -/
  initTg : Counter := .wnt
  /-- `INIT_TL` (R10), default WNT. -/
  initTl : Counter := .wnt
  /-- `INIT_META` (R10), default WNT. -/
  initMeta : Counter := .wnt
deriving DecidableEq, Repr

/-- The configuration that `State.reset` was given. SCHEME and HB have no default in the spec; these are the
ones of the spec's own programs P2 and P6 (95_test_vectors.md). DESIGN CHOICE (log 2), unsafe for a
claim about that one state. It is one of the configurations the spec allows, and the reset event carries any other. -/
def Config.atReset : Config := { scheme := some .gshare, hb := some 2 }

/-- What `err` reads after the k-th loss of power and before the next reset: unspecified
(70_reset_and_hazards.md R251), so a free value. DESIGN CHOICE (log 11), safe. -/
opaque Config.powerOnErr : Nat → Bool

/-- What `err_code` reads after the k-th loss of power and before the next reset: unspecified (R251), so a
free value. DESIGN CHOICE (log 11), safe. -/
opaque Config.powerOnErrCode : Nat → BitVec 2

end Sys2Proof
end

