-- ==== Sys2Proof/Syntax.lean ====
section
/-! DEFINITION. The requests, one constructor per row of spec/opcode_table.json. -/

namespace Sys2Proof

/-- A request as SCHEME and the request word select it (30_encoding.md R74). PREDICT carries `pc`, TRAIN
carries `pc` and the outcome (R72); the bits a request ignores (R73) are not part of it. -/
inductive Instr where
  /-- NOP (30_encoding.md R75). -/
  | nop
  /-- STATIC.PREDICT (42_static.md R140). -/
  | staticPredict (pc : Word)
  /-- STATIC.TRAIN (42_static.md R141). -/
  | staticTrain (pc : Word) (o : BranchOutcome)
  /-- GSHARE.PREDICT (43_gshare.md R152). -/
  | gsharePredict (pc : Word)
  /-- GSHARE.TRAIN (43_gshare.md R153). -/
  | gshareTrain (pc : Word) (o : BranchOutcome)
  /-- TOURNAMENT.PREDICT (44_tournament.md R175). -/
  | tournamentPredict (pc : Word)
  /-- TOURNAMENT.TRAIN (44_tournament.md R176). -/
  | tournamentTrain (pc : Word) (o : BranchOutcome)
  /-- PERCEPTRON.PREDICT (45_perceptron.md R203). -/
  | perceptronPredict (pc : Word)
  /-- PERCEPTRON.TRAIN (45_perceptron.md R206). -/
  | perceptronTrain (pc : Word) (o : BranchOutcome)
  /-- RESERVED: a request with op = 11 (60_exceptions.md R233). -/
  | reserved
deriving DecidableEq, Repr

end Sys2Proof
end

