-- ==== Sys2Proof/WellFormed.lean ====
section
/-! DEFINITION. Which requests an instance of a scheme has (30_encoding.md R74), and which configurations are
legal (60_exceptions.md R232, read as a predicate; what reset does with a configuration is `Config.build` of
Machine/Build.lean). -/

namespace Sys2Proof

/-- The scheme whose rule a request selects; `none` for NOP and the reserved request, which every scheme has. -/
def Instr.scheme : Instr → Option Scheme
  | .nop => none
  | .staticPredict _ => some .static
  | .staticTrain _ _ => some .static
  | .gsharePredict _ => some .gshare
  | .gshareTrain _ _ => some .gshare
  | .tournamentPredict _ => some .tournament
  | .tournamentTrain _ _ => some .tournament
  | .perceptronPredict _ => some .perceptron
  | .perceptronTrain _ _ => some .perceptron
  | .reserved => none

/-- A request belongs to an instance of scheme `sch` (30_encoding.md R74). -/
def Instr.wellFormed (sch : Scheme) (i : Instr) : Bool :=
  i.scheme == none || i.scheme == some sch

/-- A parameter is present and satisfies `p`. -/
def Config.given (x : Option Word) (p : Word → Bool) : Bool :=
  x.any p

/-- `CONFIG_OK`, check by check as 60_exceptions.md R232 lists them: the scheme is one of the four, every
parameter the scheme needs is present, the tournament widths are at most 32, `H` and `N` at least 1, and
`INIT_GS` is SNT or WNT. -/
def Config.wellFormed (c : Config) : Bool :=
  match c.scheme with
  | none => false
  | some .static => true
  | some .gshare =>
      Config.given c.hb (fun _ => true) && (c.initGs == .snt || c.initGs == .wnt)
  | some .tournament =>
      Config.given c.tg (fun x => x.toNat ≤ 32) && Config.given c.tl (fun x => x.toNat ≤ 32) &&
        Config.given c.pi (fun x => x.toNat ≤ 32)
  | some .perceptron =>
      Config.given c.h (fun x => 1 ≤ x.toNat) && Config.given c.n (fun x => 1 ≤ x.toNat) &&
        Config.given c.theta (fun _ => true)

end Sys2Proof
end

