-- ==== Sys2Proof/Decode.lean ====
section
/-! DEFINITION. The request word (30_encoding.md): its fields, the decoder, the encoder and the opcode table. -/

namespace Sys2Proof

/-- `op = req[34:33]` (30_encoding.md R70). -/
def opField (req : Request) : BitVec 2 := req.extractLsb' 33 2

/-- `o = req[32]` (R70, R72). -/
def oField (req : Request) : BranchOutcome := req.getLsbD 32

/-- `pc = req[31:0]`, whole and unsigned (R70, R72). -/
def pcField (req : Request) : Word := req.extractLsb' 0 32

/-- The PREDICT of a scheme (the table of R74). -/
def decodePredict (sch : Scheme) (pc : Word) : Instr :=
  match sch with
  | .static => .staticPredict pc
  | .gshare => .gsharePredict pc
  | .tournament => .tournamentPredict pc
  | .perceptron => .perceptronPredict pc

/-- The TRAIN of a scheme (the table of R74). -/
def decodeTrain (sch : Scheme) (pc : Word) (o : BranchOutcome) : Instr :=
  match sch with
  | .static => .staticTrain pc o
  | .gshare => .gshareTrain pc o
  | .tournament => .tournamentTrain pc o
  | .perceptron => .perceptronTrain pc o

/-- The decoder: it takes SCHEME and the request word (R74) and is total (R76). -/
def decode (sch : Scheme) (req : Request) : Instr :=
  match (opField req).toNat with
  | 0 => .nop
  | 1 => decodePredict sch (pcField req)
  | 2 => decodeTrain sch (pcField req) (oField req)
  | _ => .reserved

/-- Why a number is no request word. -/
inductive DecodeError where
  /-- A bit above bit 34 is set: a request has 35 bits (R70). -/
  | wordTooWide
deriving DecidableEq, Repr

/-- Decode a number of any size: a request word has 35 bits (R70), anything wider is rejected by name. -/
def decodeNumber (sch : Scheme) (w : Nat) : Except DecodeError Instr :=
  if w < 2 ^ 35 then .ok (decode sch (BitVec.ofNat 35 w)) else .error .wordTooWide

/-- The instruction the decoder reads from a table word, in an instance of the scheme `State.reset` holds: the
rows of two schemes share their words, and only SCHEME tells them apart (R74; log 3). -/
def decodeTableWord (nbits w : Nat) : Option Instr :=
  match Config.atReset.scheme with
  | none => none
  | some sch => (decodeNumber sch (w % 2 ^ nbits)).toOption

/-- `{op, o, pc}` with `op` in the high bits (R70). -/
def requestWord (op : BitVec 2) (o : BranchOutcome) (pc : Word) : Request :=
  op ++ BitVec.ofBool o ++ pc

/-- The encoder (R71, R79). The bits a request ignores are written 0 (R79); for the reserved request, for
which the spec gives no text form, likewise. DESIGN CHOICE (log 18), safe. -/
def encode : Instr → Request
  | .nop => requestWord 0 false 0
  | .staticPredict pc => requestWord 1 false pc
  | .staticTrain pc o => requestWord 2 o pc
  | .gsharePredict pc => requestWord 1 false pc
  | .gshareTrain pc o => requestWord 2 o pc
  | .tournamentPredict pc => requestWord 1 false pc
  | .tournamentTrain pc o => requestWord 2 o pc
  | .perceptronPredict pc => requestWord 1 false pc
  | .perceptronTrain pc o => requestWord 2 o pc
  | .reserved => requestWord 3 false 0

/-- A row of spec/opcode_table.json: a word selects it when `req & mask = match` (R70). -/
structure Row where
  mnemonic : String
  pattern : Request
  mask : Request
  scheme : Option Scheme
deriving DecidableEq, Repr

/-- The row of a request, transcribed from spec/opcode_table.json. -/
def Instr.row : Instr → Row
  | .nop => ⟨"NOP", 0x000000000, 0x600000000, none⟩
  | .staticPredict _ => ⟨"STATIC.PREDICT", 0x200000000, 0x600000000, some .static⟩
  | .staticTrain _ _ => ⟨"STATIC.TRAIN", 0x400000000, 0x600000000, some .static⟩
  | .gsharePredict _ => ⟨"GSHARE.PREDICT", 0x200000000, 0x600000000, some .gshare⟩
  | .gshareTrain _ _ => ⟨"GSHARE.TRAIN", 0x400000000, 0x600000000, some .gshare⟩
  | .tournamentPredict _ => ⟨"TOURNAMENT.PREDICT", 0x200000000, 0x600000000, some .tournament⟩
  | .tournamentTrain _ _ => ⟨"TOURNAMENT.TRAIN", 0x400000000, 0x600000000, some .tournament⟩
  | .perceptronPredict _ => ⟨"PERCEPTRON.PREDICT", 0x200000000, 0x600000000, some .perceptron⟩
  | .perceptronTrain _ _ => ⟨"PERCEPTRON.TRAIN", 0x400000000, 0x600000000, some .perceptron⟩
  | .reserved => ⟨"RESERVED", 0x600000000, 0x600000000, none⟩

/-- A word selects a row in an instance of scheme `sch` (R70, R74). -/
def Row.selects (r : Row) (sch : Scheme) (req : Request) : Bool :=
  (req &&& r.mask == r.pattern) && (r.scheme == none || r.scheme == some sch)

/-- The 2-bit code of SCHEME (10_state.md R24). -/
def Scheme.bits : Scheme → BitVec 2
  | .static => 0
  | .gshare => 1
  | .tournament => 2
  | .perceptron => 3

/-- The scheme a 2-bit code selects (R24): every code is one. -/
def Scheme.ofBits (b : BitVec 2) : Scheme :=
  match b.toNat with
  | 0 => .static
  | 1 => .gshare
  | 2 => .tournament
  | _ => .perceptron

end Sys2Proof
end

