-- ==== Sys2Proof/Machine/Instance.lean ====
section
/-! DEFINITION. The predictor instances: the parameters and the storage of each scheme, as plain data
(10_state.md R25 to R34). Only the state of the chosen scheme exists (00_scope.md R2). -/

namespace Sys2Proof.Machine

/-- An array by index, as the entries that differ from the array's reset value: indices strictly rising, no
entry equal to that value. An index not listed holds the reset value. DEDUCED from 10_state.md R36 and I7
(log 6), safe: every index of the dense array reads a value, and equal arrays are equal lists. -/
abbrev Table (α : Type) := List (Nat × α)

/-- A GSHARE instance (00_scope.md R7, R10; 10_state.md R26, R27). -/
structure Gshare where
  /-- `HB`. -/
  hb : Word
  /-- `INIT_GS`. -/
  initGs : Counter
  /-- `GHR_gs`, `HBe` bits, bit 0 the newest outcome. -/
  ghr : Nat
  /-- `PHT_gs`, `2^HBe` counters, reset value `INIT_GS`. -/
  pht : Table Counter
deriving DecidableEq, Repr

/-- A TOURNAMENT instance (00_scope.md R8, R10; 10_state.md R28 to R32). -/
structure Tournament where
  /-- `TG`. -/
  tg : Word
  /-- `TL`. -/
  tl : Word
  /-- `PI`. -/
  pi : Word
  /-- `INIT_TG`. -/
  initTg : Counter
  /-- `INIT_TL`. -/
  initTl : Counter
  /-- `INIT_META`. -/
  initMeta : Counter
  /-- `GHR_t`, `TG` bits, bit 0 the newest outcome. -/
  ghr : Nat
  /-- `GCT`, `2^TG` counters, reset value `INIT_TG`. -/
  gct : Table Counter
  /-- `LHT`, `2^PI` entries of `TL` bits, reset value 0. -/
  lht : Table Nat
  /-- `LCT`, `2^TL` counters, reset value `INIT_TL`. -/
  lct : Table Counter
  /-- `META`. -/
  metaCtr : Counter
deriving DecidableEq, Repr

/-- A PERCEPTRON instance (00_scope.md R9; 10_state.md R33, R34). -/
structure Perceptron where
  /-- `H`. -/
  h : Word
  /-- `N`. -/
  n : Word
  /-- `THETA`. -/
  theta : Word
  /-- `PERC_HASH`. -/
  percHash : HashTable
  /-- `PHR`, `H` bits, bit 0 (slot 0) the newest outcome. -/
  phr : Nat
  /-- `W`, `N` rows of `H` weights, weight `i` of a row pairing with slot `i`; reset value: a row of zeros. -/
  w : Table (List Weight)
deriving DecidableEq, Repr

/-- What stands behind the request port. -/
inductive Instance where
  /-- Before the first reset, and after a loss of power: every piece of state is unspecified
  (70_reset_and_hazards.md R251, 60_exceptions.md R243). -/
  | unbuilt
  /-- After a reset whose configuration check failed: there is no predictor state (10_state.md R40). -/
  | invalid (c : Config)
  /-- A STATIC instance: no parameters and no predictor state (00_scope.md R11, 10_state.md R25). -/
  | static
  /-- A GSHARE instance. -/
  | gshare (g : Gshare)
  /-- A TOURNAMENT instance. -/
  | tournament (t : Tournament)
  /-- A PERCEPTRON instance. -/
  | perceptron (p : Perceptron)
deriving DecidableEq, Repr

end Sys2Proof.Machine
end

