-- ==== Sys2Proof/Machine/State.lean ====
section
/-! DEFINITION. The state of the machine, the reasons a step can stop, and the state after reset. -/

namespace Sys2Proof.Machine

/-- What the outside world does to the block, in the order it does it (70_reset_and_hazards.md R256,
20_memory.md R57). There is no event that changes a parameter without a reset: the model has no step for it
(70_reset_and_hazards.md R252). -/
inductive PortEvent where
  /-- The host offers a request word (30_encoding.md R70). -/
  | request (req : Request)
  /-- The host applies reset with a configuration (R250, R254); a request offered in the same step (R253). -/
  | reset (c : Config) (offered : Option Request)
  /-- The power is lost and comes back (60_exceptions.md R243). DESIGN CHOICE (log 11), safe. -/
  | powerLoss
deriving DecidableEq, Repr

/-- The two fault classes of 60_exceptions.md R230. Raising one is a next state (R235), not a stop. -/
inductive FaultClass where
  /-- CfgFault: the configuration check fails at reset (R232). -/
  | cfgFault
  /-- OpFault: a request with op = 11 is taken (R233). -/
  | opFault
deriving DecidableEq, Repr

/-- The whole machine, as plain data. -/
structure State where
  /-- The instance: SCHEME, its parameters and its predictor state (10_state.md R24 to R34). -/
  inst : Instance
  /-- `err`, 1 bit, sticky (10_state.md R23). -/
  err : Bool
  /-- `err_code`, 2 bits: 0 NONE, 1 CFG, 2 OP, 3 never written (R23). -/
  errCode : BitVec 2
  /-- The response ports `resp_valid` and `resp_pred` (30_encoding.md R78): the answer of the step just taken.
  The model's own: `pred` is not state (10_state.md R22). DESIGN CHOICE (log 5), safe. -/
  resp : Option BranchOutcome
  /-- What the outside world does next, oldest first. The model's own. DESIGN CHOICE (log 4), safe. -/
  inbox : List PortEvent
  /-- How often the power was lost: it makes the free values of log 11 fresh. The model's own. -/
  powerUps : Nat
deriving DecidableEq, Repr

/-- Why the machine is stuck. -/
inductive Fault where
  /-- A request before the first reset, or after a loss of power and before the next reset: the spec gives it
  no step, "stuck" (70_reset_and_hazards.md R251, I11). Raised by every request there (`State.take`).
  Safe: nothing can be proved of such a run. -/
  | requestBeforeReset
deriving DecidableEq, Repr

/-- Why an instruction has no meaning in a state. -/
inductive Refusal where
  /-- An instruction whose meaning is not written yet. Raised by an arm of `exec` only. Safe. No arm raises it. -/
  | notModelled (mnemonic : String)
  /-- A PREDICT or TRAIN of a scheme the instance does not implement: only the state of the chosen scheme
  exists (00_scope.md R2), and no request word selects another scheme's rule (30_encoding.md R74), so no step
  raises it; `exec` raises it when it is given such an instruction. DEDUCED (log 12). Safe. -/
  | schemeNotBuilt
deriving DecidableEq, Repr

/-- The machine right after a reset with `Config.atReset` (log 2): 10_state.md R39 for a GSHARE instance with
`HB = 2` and `INIT_GS = WNT`, nothing pending, no answer given. -/
def State.reset : State where
  inst := .gshare { hb := 2, initGs := .wnt, ghr := 0, pht := [] }
  err := false
  errCode := 0
  resp := none
  inbox := []
  powerUps := 0

end Sys2Proof.Machine
end

