-- ==== Sys2Proof/Machine/Build.lean ====
section
/-! DEFINITION. The configuration check and the instance a reset builds (60_exceptions.md R232, 10_state.md R39,
R40). -/

namespace Sys2Proof.Machine

/-- A GSHARE instance right after reset: GHR_gs is 0 and every counter is INIT_GS (R39). Every u32 HB is legal;
INIT_GS must be SNT or WNT (R232). -/
def buildGshare (c : Config) : Option Instance := do
  let hb ← c.hb
  if c.initGs = .snt ∨ c.initGs = .wnt then
    some (.gshare { hb := hb, initGs := c.initGs, ghr := 0, pht := [] })
  else none

/-- A TOURNAMENT instance right after reset: GHR_t and every LHT entry are 0, every counter is at its table's
initial state and META at INIT_META (R39). TG, TL and PI are at most 32 (R232). -/
def buildTournament (c : Config) : Option Instance := do
  let tg ← c.tg
  let tl ← c.tl
  let pi ← c.pi
  if tg.toNat ≤ 32 ∧ tl.toNat ≤ 32 ∧ pi.toNat ≤ 32 then
    some (.tournament
      { tg := tg, tl := tl, pi := pi, initTg := c.initTg, initTl := c.initTl, initMeta := c.initMeta,
        ghr := 0, gct := [], lht := [], lct := [], metaCtr := c.initMeta })
  else none

/-- A PERCEPTRON instance right after reset: PHR and every weight are 0 (R39). H and N are at least 1 (R232). -/
def buildPerceptron (c : Config) : Option Instance := do
  let h ← c.h
  let n ← c.n
  let theta ← c.theta
  if 1 ≤ h.toNat ∧ 1 ≤ n.toNat then
    some (.perceptron { h := h, n := n, theta := theta, percHash := c.percHash, phr := 0, w := [] })
  else none

/-- The instance a reset builds from the configuration, or none when the check of R232 fails. Parameters of
other schemes are not looked at: R232 checks what the scheme needs. DEDUCED (log 13), unsafe
if a block checks them. -/
def buildInstance (c : Config) : Option Instance :=
  match c.scheme with
  | none => none
  | some .static => some .static
  | some .gshare => buildGshare c
  | some .tournament => buildTournament c
  | some .perceptron => buildPerceptron c

end Sys2Proof.Machine
end

