-- ==== Sys2Proof/Machine/Ops.lean ====
section
/-! DEFINITION. The named operations over the state: reading and writing an array, answering, taking a request,
raising a fault, reset, and a loss of power. -/

namespace Sys2Proof.Machine

/-- A step's outcome. -/
abbrev Result := Host.Outcome State Fault Refusal

/-- `T[i]` (00_scope.md R14): entry `i` of an array whose reset value is `d`. -/
def Table.read {α : Type} (t : Table α) (d : α) (i : Nat) : α :=
  match t with
  | [] => d
  | (j, v) :: rest => if j = i then v else Table.read rest d i

/-- `T[i] <- v` (00_scope.md R14), keeping the array's canonical form: an entry that is set to the reset value
`d` is not listed. -/
def Table.write {α : Type} [DecidableEq α] (t : Table α) (d : α) (i : Nat) (v : α) : Table α :=
  match t with
  | [] => if v = d then [] else [(i, v)]
  | (j, u) :: rest =>
      if i < j then (if v = d then (j, u) :: rest else (i, v) :: (j, u) :: rest)
      else if i = j then (if v = d then rest else (i, v) :: rest)
      else (j, u) :: Table.write rest d i v

/-- The canonical form of an array of `size` entries with reset value `d`: indices strictly rising and below
`size`, no entry equal to `d`. -/
def Table.wf {α : Type} [DecidableEq α] (t : Table α) (d : α) (size : Nat) : Bool :=
  decide (t.Pairwise fun a b => a.1 < b.1) && t.all fun e => decide (e.1 < size ∧ e.2 ≠ d)

/-- No answer on the response ports (30_encoding.md R71, R78). -/
def State.silent (s : State) : State := { s with resp := none }

/-- The answer `p` on the response ports (10_state.md R22, 30_encoding.md R78). -/
def State.respond (s : State) (p : BranchOutcome) : State := { s with resp := some p }

/-- The instance's predictor state is replaced. -/
def State.setInst (s : State) (i : Instance) : State := { s with inst := i }

/-- The scheme of the instance; none where there is no instance. -/
def Instance.scheme : Instance → Option Scheme
  | .unbuilt => none
  | .invalid _ => none
  | .static => some .static
  | .gshare _ => some .gshare
  | .tournament _ => some .tournament
  | .perceptron _ => some .perceptron

/-- The `err_code` of a fault class (60_exceptions.md R230). -/
def FaultClass.code : FaultClass → BitVec 2
  | .cfgFault => 1
  | .opFault => 2

/-- Fault entry, `raise F` (60_exceptions.md R235): the first fault sets `err` and `err_code`, a later one
leaves both. Nothing else is saved and nothing else changes; there is no vector and no mode. The only way
back is reset (R238): `State.applyReset`. -/
def State.raise (s : State) (f : FaultClass) : State :=
  if s.err then s else { s with err := true, errCode := f.code }

/-- Taking a request. Before the first reset there is no step (70_reset_and_hazards.md R251). While `err = 1`
the request is refused: no state changes, no answer, no new fault (60_exceptions.md R236); that refusal is a
next state. DEDUCED (log 9), safe. Otherwise the request runs, on response ports that show no answer yet. -/
def State.take (s : State) (run : State → Result) : Result :=
  if s.inst = .unbuilt then .fault .requestBeforeReset
  else if s.err then .next s.silent
  else run s.silent

/-- The request runs in a STATIC instance. -/
def State.withStatic (s : State) (run : Result) : Result :=
  match s.inst with
  | .static => run
  | _ => .refused .schemeNotBuilt

/-- The request runs in a GSHARE instance. -/
def State.withGshare (s : State) (run : Gshare → Result) : Result :=
  match s.inst with
  | .gshare g => run g
  | _ => .refused .schemeNotBuilt

/-- The request runs in a TOURNAMENT instance. -/
def State.withTournament (s : State) (run : Tournament → Result) : Result :=
  match s.inst with
  | .tournament t => run t
  | _ => .refused .schemeNotBuilt

/-- The request runs in a PERCEPTRON instance. -/
def State.withPerceptron (s : State) (run : Perceptron → Result) : Result :=
  match s.inst with
  | .perceptron p => run p
  | _ => .refused .schemeNotBuilt

/-- Reset with a configuration (70_reset_and_hazards.md R250): `err` and `err_code` are cleared; the instance is
built with the values of 10_state.md R39, or, where the check fails, there is no predictor state (R40) and
CfgFault is raised. -/
def State.applyReset (s : State) (c : Config) : State :=
  match buildInstance c with
  | some i => { s with inst := i, err := false, errCode := 0, resp := none }
  | none => State.raise { s with inst := .invalid c, err := false, errCode := 0, resp := none } .cfgFault

/-- A loss of power (60_exceptions.md R243): no state survives, `err` and `err_code` read free values until the
next reset (70_reset_and_hazards.md R251). DESIGN CHOICE (log 11), safe. -/
def State.losePower (s : State) : State :=
  { s with inst := .unbuilt, err := Config.powerOnErr s.powerUps, errCode := Config.powerOnErrCode s.powerUps,
           resp := none, powerUps := s.powerUps + 1 }

end Sys2Proof.Machine
end

