-- ==== Sys2Proof/Machine/Deliver.lean ====
section
/-! DEFINITION. What one step does with the next event of the outside world, given the meaning of a request. -/

namespace Sys2Proof.Machine

/-- A request word is taken (30_encoding.md R74, R78): the decoder selects the rule by SCHEME and the request
runs. Without an instance there is no rule: before the first reset the machine is stuck
(70_reset_and_hazards.md R251); after a failed configuration check every request is refused (10_state.md R40,
60_exceptions.md R236). -/
def deliverRequest (run : Instr → State → Result) (req : Request) (s : State) : Result :=
  match s.inst with
  | .unbuilt => .fault .requestBeforeReset
  | .invalid _ => .next s.silent
  | .static => run (decode .static req) s
  | .gshare _ => run (decode .gshare req) s
  | .tournament _ => run (decode .tournament req) s
  | .perceptron _ => run (decode .perceptron req) s

/-- One step (20_memory.md R57): the oldest pending event takes effect, whole. A request offered in the same
step as reset is dropped (70_reset_and_hazards.md R253). With nothing pending the block holds its state
(60_exceptions.md R243; log 20), and no answer stands on the response ports. -/
def deliver (run : Instr → State → Result) (s : State) : Result :=
  match s.inbox with
  | [] => .next s.silent
  | .request req :: rest => deliverRequest run req { s with inbox := rest }
  | .reset c _ :: rest => .next (State.applyReset { s with inbox := rest } c)
  | .powerLoss :: rest => .next (State.losePower { s with inbox := rest })

/-- The host offers the request word as the very next event; a number of more than 35 bits is no request word
and offers nothing. -/
def offerWord (s : State) (nbits w : Nat) : State :=
  if w % 2 ^ nbits < 2 ^ 35 then
    { s with inbox := .request (BitVec.ofNat 35 (w % 2 ^ nbits)) :: s.inbox }
  else s

end Sys2Proof.Machine
end

