-- ==== Sys2Proof/Machine/Counter.lean ====
section
/-! DEFINITION. The saturating counter (40_counter.md). -/

namespace Sys2Proof.Machine

/-- The 2-bit code of a counter state (40_counter.md R101). -/
def counterBits : Counter → BitVec 2
  | .snt => 0
  | .wnt => 1
  | .wt => 2
  | .st => 3

/-- The counter state of a 2-bit code: every code is one (R101). -/
def counterOfBits (b : BitVec 2) : Counter :=
  match b.toNat with
  | 0 => .snt
  | 1 => .wnt
  | 2 => .wt
  | _ => .st

/-- `CTR_NEXT(c, o)`, the table of 40_counter.md R102. -/
def ctrNext (c : Counter) (o : BranchOutcome) : Counter :=
  match c, o with
  | .snt, true => .wnt
  | .snt, false => .snt
  | .wnt, true => .wt
  | .wnt, false => .snt
  | .wt, true => .st
  | .wt, false => .wnt
  | .st, true => .st
  | .st, false => .wt

/-- `CTR_PRED(c)`: Taken in WT and ST (40_counter.md R103). -/
def ctrPred (c : Counter) : BranchOutcome :=
  match c with
  | .snt => false
  | .wnt => false
  | .wt => true
  | .st => true

/-- `A[i] <- CTR_NEXT(A[i], o)` in a counter array with initial state `init` (40_counter.md R106). -/
def trainCounter (a : Table Counter) (init : Counter) (i : Nat) (o : BranchOutcome) : Table Counter :=
  Table.write a init i (ctrNext (Table.read a init i) o)

end Sys2Proof.Machine
end

