-- ==== Sys2Proof/Machine/Bits.lean ====
section
/-! DEFINITION. The spec's bit and integer notation (00_scope.md R12, R13, R16). -/

namespace Sys2Proof.Machine

/-- `mask(w) = 2^w − 1` (00_scope.md R12). -/
def mask (w : Nat) : Nat := 2 ^ w - 1

/-- `wrap_32(z)`: the integer in `[−2^31, 2^31)` congruent to `z` modulo `2^32` (00_scope.md R13). -/
def wrap32 (z : Int) : Int := z.bmod (2 ^ 32)

/-- `pm(o)`: `+1` for Taken, `−1` for NotTaken (00_scope.md R16). -/
def pm (o : BranchOutcome) : Int := if o then 1 else -1

/-- A 32-bit weight read as two's complement, `sint_32` (00_scope.md R13). -/
def sint32 (w : Weight) : Int := w.toInt

/-- The 32-bit pattern whose two's-complement reading is `wrap_32(z)` (00_scope.md R13). -/
def weightOf (z : Int) : Weight := BitVec.ofInt 32 z

end Sys2Proof.Machine
end

