-- ==== Sys2Proof/Machine/History.lean ====
section
/-! DEFINITION. The history registers (41_history.md), read as the naturals their bits make (00_scope.md R12;
log 7). -/

namespace Sys2Proof.Machine

/-- `HIST_SHIFT(h, o, w) = ((h << 1) | o) & mask(w)`: the newest outcome enters at bit 0, the oldest is dropped
(41_history.md R121). -/
def histShift (h : Nat) (o : BranchOutcome) (w : Nat) : Nat :=
  ((h <<< 1) ||| o.toNat) &&& mask w

/-- `HIST_VAL(h, k) = h & mask(k)`: the `k` newest outcomes (41_history.md R122). -/
def histVal (h : Nat) (k : Nat) : Nat := h &&& mask k

end Sys2Proof.Machine
end

