-- ==== Sys2Proof/Machine/Operands.lean ====
section
/-! DEFINITION. The operands a request forms from `pc` and the state: the effective widths, the array indices
(20_memory.md R50), the rows and slots the perceptron reads, and the score. -/

namespace Sys2Proof.Machine

/-- `HBe = min(HB, 32)` (00_scope.md R7). -/
def Gshare.hbe (g : Gshare) : Nat := min g.hb.toNat 32

/-- `GS_INDEX(pc) = (pc XOR HIST_VAL(GHR_gs, HBe)) & mask(HBe)` (43_gshare.md R150). -/
def Gshare.index (g : Gshare) (pc : Word) : Nat :=
  (pc.toNat ^^^ histVal g.ghr g.hbe) &&& mask g.hbe

/-- `TG_INDEX` (44_tournament.md R170). -/
def Tournament.globalIndex (t : Tournament) : Nat := histVal t.ghr t.tg.toNat

/-- `LHT_INDEX(pc)` (44_tournament.md R171). -/
def Tournament.slot (t : Tournament) (pc : Word) : Nat := pc.toNat &&& mask t.pi.toNat

/-- `LHT[LHT_INDEX(pc)]`, which is `LCT_INDEX(pc)` (44_tournament.md R172). -/
def Tournament.pattern (t : Tournament) (pc : Word) : Nat := Table.read t.lht 0 (t.slot pc)

/-- A function u32 → u32 kept as plain data (Config.lean, `HashTable`; log 8). -/
def HashTable.apply (f : HashTable) (pc : Word) : Word :=
  match f with
  | [] => pc
  | (a, v) :: rest => if a = pc then v else HashTable.apply rest pc

/-- `BUCKET(pc) = PERC_HASH(pc) mod N` (45_perceptron.md R200). -/
def Perceptron.bucket (p : Perceptron) (pc : Word) : Nat :=
  (HashTable.apply p.percHash pc).toNat % p.n.toNat

/-- The reset value of a row of `W`: `H` zeros (10_state.md R34). -/
def Perceptron.zeroRow (p : Perceptron) : List Weight := List.replicate p.h.toNat 0

/-- `W[b]`. -/
def Perceptron.row (p : Perceptron) (b : Nat) : List Weight := Table.read p.w p.zeroRow b

/-- `W[b][i]` as a signed integer (45_perceptron.md R201). -/
def Perceptron.weight (p : Perceptron) (b i : Nat) : Int := sint32 ((p.row b).getD i 0)

/-- `x_i = pm(PHR[i])` (41_history.md R125). -/
def Perceptron.slotSign (p : Perceptron) (i : Nat) : Int := pm (p.phr.testBit i)

/-- The terms `x_i · w_i` of the score of bucket `b`, for `i` from 0 to `H − 1` (45_perceptron.md R201). -/
def Perceptron.terms (p : Perceptron) (b : Nat) : List Int :=
  (List.range p.h.toNat).map fun i => p.slotSign i * p.weight b i

/-- `SCORE(pc) = wrap_32(Σ x_i · w_i)` (45_perceptron.md R201). -/
def Perceptron.score (p : Perceptron) (pc : Word) : Int :=
  wrap32 (p.terms (p.bucket pc)).sum

end Sys2Proof.Machine
end

