-- ==== Sys2Proof/Machine/Flags.lean ====
section
/-! DEFINITION. The one-bit results. The block has no condition flags (10_state.md R22); these are the votes,
the selector, the predictions and the training condition its rules compute. -/

namespace Sys2Proof.Machine

/-- `GVOTE` (44_tournament.md R173). -/
def Tournament.globalVote (t : Tournament) : BranchOutcome :=
  ctrPred (Table.read t.gct t.initTg t.globalIndex)

/-- `LVOTE(pc)` (44_tournament.md R173). -/
def Tournament.localVote (t : Tournament) (pc : Word) : BranchOutcome :=
  ctrPred (Table.read t.lct t.initTl (t.pattern pc))

/-- `SEL`: Taken selects the local vote (44_tournament.md R173, R178). -/
def Tournament.selector (t : Tournament) : BranchOutcome := ctrPred t.metaCtr

/-- `CHOICE(pc)`, the 2-to-1 mux (44_tournament.md R173). -/
def Tournament.choice (t : Tournament) (pc : Word) : BranchOutcome :=
  if t.selector then t.localVote pc else t.globalVote

/-- `PPRED(pc)`: Taken when the score is above 0, so a tie is NotTaken (45_perceptron.md R202). -/
def Perceptron.pred (p : Perceptron) (pc : Word) : BranchOutcome := decide (0 < p.score pc)

/-- `TRAIN_COND = (sign(S) ≠ t) or (|S| < THETA)` with `t = pm(o)` (45_perceptron.md R204). -/
def Perceptron.trainCond (p : Perceptron) (pc : Word) (o : BranchOutcome) : Bool :=
  decide ((p.score pc).sign ≠ pm o ∨ (p.score pc).natAbs < p.theta.toNat)

end Sys2Proof.Machine
end

