-- ==== Sys2Proof/Machine/Gshare.lean ====
section
/-! DEFINITION. The gshare predictor (43_gshare.md). -/

namespace Sys2Proof.Machine

/-- The prediction: `CTR_PRED(PHT_gs[GS_INDEX(pc)])` (43_gshare.md R152). -/
def Gshare.predict (g : Gshare) (pc : Word) : BranchOutcome :=
  ctrPred (Table.read g.pht g.initGs (g.index pc))

/-- One training: the counter at the index of the pre-update history, then the history (43_gshare.md R153). -/
def Gshare.train (g : Gshare) (pc : Word) (o : BranchOutcome) : Gshare :=
  { g with
    pht := trainCounter g.pht g.initGs (g.index pc) o
    ghr := histShift g.ghr o g.hbe }

/-- GSHARE.PREDICT (43_gshare.md R152): no state is written. -/
def execGsharePredict (pc : Word) (s : State) : Result :=
  s.take fun s => s.withGshare fun g => .next (s.respond (g.predict pc))

/-- GSHARE.TRAIN (43_gshare.md R153). -/
def execGshareTrain (pc : Word) (o : BranchOutcome) (s : State) : Result :=
  s.take fun s => s.withGshare fun g => .next (s.setInst (.gshare (g.train pc o)))

end Sys2Proof.Machine
end

