-- ==== Sys2Proof/Machine/Perceptron.lean ====
section
/-! DEFINITION. The perceptron predictor (45_perceptron.md). -/

namespace Sys2Proof.Machine

/-- A row after training: weight `i` becomes `wrap_32(w_i + t · x_i)` with `x_i` from the pre-update history
(45_perceptron.md R205). -/
def Perceptron.trainedRow (p : Perceptron) (b : Nat) (o : BranchOutcome) : List Weight :=
  (List.range p.h.toNat).map fun i => weightOf (p.weight b i + pm o * p.slotSign i)

/-- One training: where TRAIN_COND holds the row of the bucket changes; the history shifts always
(45_perceptron.md R206). -/
def Perceptron.train (p : Perceptron) (pc : Word) (o : BranchOutcome) : Perceptron :=
  { p with
    w := if p.trainCond pc o then Table.write p.w p.zeroRow (p.bucket pc) (p.trainedRow (p.bucket pc) o) else p.w
    phr := histShift p.phr o p.h.toNat }

/-- PERCEPTRON.PREDICT: `PPRED(pc)`, no state is written (45_perceptron.md R203). -/
def execPerceptronPredict (pc : Word) (s : State) : Result :=
  s.take fun s => s.withPerceptron fun p => .next (s.respond (p.pred pc))

/-- PERCEPTRON.TRAIN (45_perceptron.md R206). -/
def execPerceptronTrain (pc : Word) (o : BranchOutcome) (s : State) : Result :=
  s.take fun s => s.withPerceptron fun p => .next (s.setInst (.perceptron (p.train pc o)))

end Sys2Proof.Machine
end

