-- ==== Sys2Proof/Machine/Static.lean ====
section
/-! DEFINITION. The static predictor (42_static.md). -/

namespace Sys2Proof.Machine

/-- STATIC.PREDICT: `pred <- T`, whatever `pc` (42_static.md R140). -/
def execStaticPredict (_pc : Word) (s : State) : Result :=
  s.take fun s => s.withStatic (.next (s.respond true))

/-- STATIC.TRAIN: skip (42_static.md R141). -/
def execStaticTrain (_pc : Word) (_o : BranchOutcome) (s : State) : Result :=
  s.take fun s => s.withStatic (.next s)

end Sys2Proof.Machine
end

