-- ==== Sys2Proof/Machine/System.lean ====
section
/-! DEFINITION. The requests every scheme has: NOP and the reserved request. -/

namespace Sys2Proof.Machine

/-- NOP: skip (30_encoding.md R75). -/
def execNop (s : State) : Result := s.take fun s => .next s

/-- RESERVED: raise OpFault; no predictor state changes and there is no prediction (60_exceptions.md R233, R235). -/
def execReserved (s : State) : Result := s.take fun s => .next (s.raise .opFault)

end Sys2Proof.Machine
end

