-- ==== Sys2Proof/Machine/Tournament.lean ====
section
/-! DEFINITION. The tournament predictor (44_tournament.md). -/

namespace Sys2Proof.Machine

/-- META after a TRAIN: where the votes disagree it moves towards the vote that was right, local for Taken and
global for NotTaken; where they agree it stays (44_tournament.md R174, R178). -/
def Tournament.nextMeta (t : Tournament) (pc : Word) (o : BranchOutcome) : Counter :=
  if t.globalVote ≠ t.localVote pc then ctrNext t.metaCtr (t.localVote pc == o) else t.metaCtr

/-- One training (44_tournament.md R176): META from the votes before any write (b), the global counter and
history (c), the local counter at the pre-update pattern and that slot's pattern (d). -/
def Tournament.train (t : Tournament) (pc : Word) (o : BranchOutcome) : Tournament :=
  { t with
    metaCtr := t.nextMeta pc o
    gct := trainCounter t.gct t.initTg t.globalIndex o
    ghr := histShift t.ghr o t.tg.toNat
    lct := trainCounter t.lct t.initTl (t.pattern pc) o
    lht := Table.write t.lht 0 (t.slot pc) (histShift (t.pattern pc) o t.tl.toNat) }

/-- TOURNAMENT.PREDICT: `CHOICE(pc)`, no state is written (44_tournament.md R175). -/
def execTournamentPredict (pc : Word) (s : State) : Result :=
  s.take fun s => s.withTournament fun t => .next (s.respond (t.choice pc))

/-- TOURNAMENT.TRAIN (44_tournament.md R176). -/
def execTournamentTrain (pc : Word) (o : BranchOutcome) (s : State) : Result :=
  s.take fun s => s.withTournament fun t => .next (s.setInst (.tournament (t.train pc o)))

end Sys2Proof.Machine
end

