-- ==== Sys2Proof/Machine/Dispatch.lean ====
section
/-! DEFINITION. The meaning of each request, one arm per constructor of Instr. -/

namespace Sys2Proof.Machine

def exec (i : Instr) (s : State) : Host.Outcome State Fault Refusal :=
  match i with
  | .nop => Sys2Proof.Machine.execNop s
  | .staticPredict pc => Sys2Proof.Machine.execStaticPredict pc s
  | .staticTrain pc o => Sys2Proof.Machine.execStaticTrain pc o s
  | .gsharePredict pc => Sys2Proof.Machine.execGsharePredict pc s
  | .gshareTrain pc o => Sys2Proof.Machine.execGshareTrain pc o s
  | .tournamentPredict pc => Sys2Proof.Machine.execTournamentPredict pc s
  | .tournamentTrain pc o => Sys2Proof.Machine.execTournamentTrain pc o s
  | .perceptronPredict pc => Sys2Proof.Machine.execPerceptronPredict pc s
  | .perceptronTrain pc o => Sys2Proof.Machine.execPerceptronTrain pc o s
  | .reserved => Sys2Proof.Machine.execReserved s

end Sys2Proof.Machine
end

