-- ==== Sys2Proof/Machine/Step.lean ====
section
/-! DEFINITION. One step of the machine, and the placing of a request word where the next step takes it. -/

namespace Sys2Proof.Machine

/-- One step: the next event of the outside world takes effect, a request through `exec`. -/
def step (s : State) : Host.Outcome State Fault Refusal := deliver exec s

/-- `s` with the request word offered as the next event, so that the next step runs it (log 4). -/
def State.withFetchWord (s : State) (nbits w : Nat) : State := offerWord s nbits w

end Sys2Proof.Machine
end

