-- ==== Sys2Proof/Machine/Ports.lean ====
section
/-! DEFINITION. The optional port-level mapping (30_encoding.md R78): the input ports as the event of a step, the
output ports as a reading of the state. -/

namespace Sys2Proof.Machine

/-- The input ports (30_encoding.md R78). -/
structure PortIn where
  rst : Bool
  reqValid : Bool
  reqOp : BitVec 2
  reqO : Bool
  reqPc : Word
deriving DecidableEq, Repr

/-- The output ports (30_encoding.md R78). `respPred` has no value while `respValid` is 0 (10_state.md R39; log 5). -/
structure PortOut where
  respValid : Bool
  respPred : Option BranchOutcome
  err : Bool
  errCode : BitVec 2
deriving DecidableEq, Repr

/-- The request word on the ports: `req[34:33]`, `req[32]` and `req[31:0]` (30_encoding.md R78). -/
def portRequest (p : PortIn) : Request := p.reqOp ++ BitVec.ofBool p.reqO ++ p.reqPc

/-- The request the ports offer, if any. -/
def portOffer (p : PortIn) : Option Request := if p.reqValid then some (portRequest p) else none

/-- The event of one step at the ports, with the configuration `c` held at the parameters
(70_reset_and_hazards.md R250, R252, R253). -/
def portEvents (c : Config) (p : PortIn) : List PortEvent :=
  if p.rst then [.reset c (portOffer p)] else (portOffer p).toList.map .request

/-- The output ports in a state (10_state.md R22, R23). -/
def portsOut (s : State) : PortOut :=
  { respValid := s.resp.isSome, respPred := s.resp, err := s.err, errCode := s.errCode }

/-- One step at the ports: what they offer is what the block takes. -/
def portStep (c : Config) (p : PortIn) (s : State) : Result := step { s with inbox := portEvents c p }

end Sys2Proof.Machine
end

