-- ==== Sys2Proof/Machine/Storage.lean ====
section
/-! DEFINITION. The shape of the storage each scheme holds (20_memory.md R50, 10_state.md R35). -/

namespace Sys2Proof.Machine

/-- An element of the storage: how many entries, and how many bits each. -/
structure Element where
  entries : Nat
  bitsPerEntry : Nat
deriving DecidableEq, Repr

/-- The elements of an instance, in the order of the table of 10_state.md R35; the status bits are not counted. -/
def Instance.elements : Instance → List Element
  | .unbuilt => []
  | .invalid _ => []
  | .static => []
  | .gshare g => [⟨1, g.hbe⟩, ⟨2 ^ g.hbe, 2⟩]
  | .tournament t =>
      [⟨1, t.tg.toNat⟩, ⟨2 ^ t.tg.toNat, 2⟩, ⟨2 ^ t.pi.toNat, t.tl.toNat⟩, ⟨2 ^ t.tl.toNat, 2⟩, ⟨1, 2⟩]
  | .perceptron p => [⟨1, p.h.toNat⟩, ⟨p.n.toNat * p.h.toNat, 32⟩]

/-- The bits an instance stores (10_state.md R35). -/
def Instance.storageBits (i : Instance) : Nat :=
  (i.elements.map fun e => e.entries * e.bitsPerEntry).sum

end Sys2Proof.Machine
end

