-- ==== Sys2Proof/Safety.lean ====
section
/-! DEFINITION. What claims are stated in: the states that take requests, the invariant of the machine, runs and
their observation (70_reset_and_hazards.md R261). -/

namespace Sys2Proof.Machine

/-- The state takes requests and is not faulted: a reset has built an instance and `err = 0`
(70_reset_and_hazards.md R254). -/
def State.Ready (s : State) : Prop := s.inst.scheme.isSome = true ∧ s.err = false

/-- The parameters of an instance, as the configuration that builds it (10_state.md R24); those of the other
schemes are missing or at their defaults. -/
def Instance.parameters : Instance → Option Config
  | .unbuilt => none
  | .invalid c => some c
  | .static => some { scheme := some .static }
  | .gshare g => some { scheme := some .gshare, hb := some g.hb, initGs := g.initGs }
  | .tournament t =>
      some { scheme := some .tournament, tg := some t.tg, tl := some t.tl, pi := some t.pi,
             initTg := t.initTg, initTl := t.initTl, initMeta := t.initMeta }
  | .perceptron p =>
      some { scheme := some .perceptron, h := some p.h, n := some p.n, theta := some p.theta,
             percHash := p.percHash }

/-- A GSHARE instance is sound: INIT_GS is legal, the history has `HBe` bits, the table is canonical and has
`2^HBe` entries. -/
def Gshare.Sound (g : Gshare) : Prop :=
  ctrPred g.initGs = false ∧ g.ghr < 2 ^ g.hbe ∧ Table.wf g.pht g.initGs (2 ^ g.hbe) = true

/-- A TOURNAMENT instance is sound: legal widths, histories and patterns of their widths, canonical tables of
their sizes. -/
def Tournament.Sound (t : Tournament) : Prop :=
  (t.tg.toNat ≤ 32 ∧ t.tl.toNat ≤ 32 ∧ t.pi.toNat ≤ 32) ∧ t.ghr < 2 ^ t.tg.toNat ∧
    Table.wf t.gct t.initTg (2 ^ t.tg.toNat) = true ∧
    (Table.wf t.lht 0 (2 ^ t.pi.toNat) = true ∧ ∀ i, Table.read t.lht 0 i < 2 ^ t.tl.toNat) ∧
    Table.wf t.lct t.initTl (2 ^ t.tl.toNat) = true

/-- A PERCEPTRON instance is sound: legal sizes, a history of `H` bits, a canonical table of `N` rows, each of
`H` weights. -/
def Perceptron.Sound (p : Perceptron) : Prop :=
  (1 ≤ p.h.toNat ∧ 1 ≤ p.n.toNat) ∧ p.phr < 2 ^ p.h.toNat ∧
    Table.wf p.w p.zeroRow p.n.toNat = true ∧ ∀ b, (p.row b).length = p.h.toNat

/-- An instance is sound: a configuration that was kept as invalid fails the check (10_state.md R40), and a
predictor's storage is as its parameters say (10_state.md R26 to R34). -/
def Instance.Sound : Instance → Prop
  | .unbuilt => True
  | .invalid c => c.wellFormed = false
  | .static => True
  | .gshare g => g.Sound
  | .tournament t => t.Sound
  | .perceptron p => p.Sound

/-- The status pair is legal (10_state.md R23, R39, R40): with an instance, no fault and NONE, or OP; without
predictor state, CFG; before a reset it is unspecified (70_reset_and_hazards.md R251). -/
def State.StatusLegal (s : State) : Prop :=
  match s.inst with
  | .unbuilt => True
  | .invalid _ => s.err = true ∧ s.errCode = 1
  | _ => (s.err = false ∧ s.errCode = 0) ∨ (s.err = true ∧ s.errCode = 2)

/-- The invariant of the machine: the instance is sound, the status pair legal, and no answer stands while the
block is faulted (60_exceptions.md R236). -/
def State.Inv (s : State) : Prop :=
  s.inst.Sound ∧ s.StatusLegal ∧ (s.err = true → s.resp = none)

/-- `k` steps: the answers given, oldest first, and the state after; or where the machine stopped. -/
def observe : Nat → State → Host.Outcome (List BranchOutcome × State) Fault Refusal
  | 0, s => .next ([], s)
  | k + 1, s =>
    match step s with
    | .next s' =>
      match observe k s' with
      | .next (answers, t) => .next (s'.resp.toList ++ answers, t)
      | .fault f => .fault f
      | .refused r => .refused r
    | .fault f => .fault f
    | .refused r => .refused r

/-- The requests of a list are offered, and nothing else is pending. -/
def State.offer (s : State) (reqs : List Request) : State := { s with inbox := reqs.map .request }

/-- A finite list of requests runs from a state (70_reset_and_hazards.md R261). -/
def runRequests (s : State) (reqs : List Request) : Host.Outcome (List BranchOutcome × State) Fault Refusal :=
  observe reqs.length (s.offer reqs)

/-- A run is a reset followed by a finite list of requests (70_reset_and_hazards.md R261). -/
def runFromReset (c : Config) (reqs : List Request) : Host.Outcome (List BranchOutcome × State) Fault Refusal :=
  runRequests (State.applyReset State.reset c) reqs

/-- The run has finished: nothing is pending and the block is not faulted. A run whose final `err` is 1 is
faulted, not finished (70_reset_and_hazards.md R261, 60_exceptions.md R236). -/
def State.Finished (s : State) : Prop := s.Ready ∧ s.inbox = []

/-- A request word whose operation code is PREDICT (30_encoding.md R71). -/
def isPredict (req : Request) : Bool := opField req == 1

/-- A request word whose operation code is TRAIN (30_encoding.md R71). -/
def isTrain (req : Request) : Bool := opField req == 2

/-- A request word whose operation code is reserved (30_encoding.md R71). -/
def isReserved (req : Request) : Bool := opField req == 3

end Sys2Proof.Machine
end

