-- ==== Sys2Proof/Safety/Reference.lean ====
section
/-! DEFINITION. Machines that claims compare the model with: the other readings the spec says are equivalent, and
sequences of trainings. None of them is part of the machine. -/

namespace Sys2Proof.Machine

/-- A branch address with its outcome: what one TRAIN is given. -/
abbrev Training := Word × BranchOutcome

/-- A GSHARE instance after a sequence of trainings, the oldest first. -/
def Gshare.after (g : Gshare) (ts : List Training) : Gshare := ts.foldl (fun g x => g.train x.1 x.2) g

/-- A TOURNAMENT instance after a sequence of trainings, the oldest first. -/
def Tournament.after (t : Tournament) (ts : List Training) : Tournament :=
  ts.foldl (fun t x => t.train x.1 x.2) t

/-- A PERCEPTRON instance after a sequence of trainings, the oldest first. -/
def Perceptron.after (p : Perceptron) (ts : List Training) : Perceptron :=
  ts.foldl (fun p x => p.train x.1 x.2) p

/-- The answers a predictor gives to request words: it answers each PREDICT, each TRAIN changes it, and from the
first reserved word on it answers nothing (60_exceptions.md R233, R236). -/
def answersOf {σ : Type} (predict : σ → Word → BranchOutcome) (train : σ → Word → BranchOutcome → σ)
    (x : σ) (reqs : List Request) : List BranchOutcome :=
  match reqs with
  | [] => []
  | r :: rest =>
    if isReserved r then []
    else if isPredict r then predict x (pcField r) :: answersOf predict train x rest
    else if isTrain r then answersOf predict train (train x (pcField r) (oField r)) rest
    else answersOf predict train x rest

/-- The gshare of 10_state.md R36: a map that holds an entry only for the indices trained since reset. -/
structure SparseGshare where
  hb : Word
  initGs : Counter
  ghr : Nat
  map : List (Nat × Counter)

/-- An absent index reads as INIT_GS (R36). -/
def SparseGshare.read (g : SparseGshare) (i : Nat) : Counter := (g.map.lookup i).getD g.initGs

/-- The index of 43_gshare.md R150. -/
def SparseGshare.index (g : SparseGshare) (pc : Word) : Nat :=
  (pc.toNat ^^^ g.ghr) % 2 ^ min g.hb.toNat 32

def SparseGshare.predict (g : SparseGshare) (pc : Word) : BranchOutcome := ctrPred (g.read (g.index pc))

/-- A training of an absent index first creates the entry at INIT_GS; then the transition is applied (R36). -/
def SparseGshare.train (g : SparseGshare) (pc : Word) (o : BranchOutcome) : SparseGshare :=
  let i := g.index pc
  let present := if (g.map.lookup i).isNone then (i, g.initGs) :: g.map else g.map
  { g with
    map := present.map fun e => if e.1 = i then (i, ctrNext e.2 o) else e
    ghr := histShift g.ghr o (min g.hb.toNat 32) }

/-- The gshare of 10_state.md R26 and C6 that keeps all `HB` outcomes, with a dense table: only the newest
`min(HB, 32)` outcomes reach the index. -/
structure WideGshare where
  hb : Word
  ghr : Nat
  pht : Nat → Counter

def WideGshare.index (g : WideGshare) (pc : Word) : Nat :=
  (pc.toNat ^^^ histVal g.ghr (min g.hb.toNat 32)) % 2 ^ min g.hb.toNat 32

def WideGshare.predict (g : WideGshare) (pc : Word) : BranchOutcome := ctrPred (g.pht (g.index pc))

def WideGshare.train (g : WideGshare) (pc : Word) (o : BranchOutcome) : WideGshare :=
  { g with
    pht := fun j => if j = g.index pc then ctrNext (g.pht j) o else g.pht j
    ghr := histShift g.ghr o g.hb.toNat }

/-- The history update in the other bit order (92_eei_decisions.md D8): the newest outcome enters at the high
end and the register shifts right. -/
def histShiftDown (h : Nat) (o : BranchOutcome) (w : Nat) : Nat :=
  if w = 0 then 0 else h / 2 + o.toNat * 2 ^ (w - 1)

/-- TOURNAMENT.TRAIN with every history register in the other bit order. -/
def Tournament.trainDown (t : Tournament) (pc : Word) (o : BranchOutcome) : Tournament :=
  { t.train pc o with
    ghr := histShiftDown t.ghr o t.tg.toNat
    lht := Table.write t.lht 0 (t.slot pc) (histShiftDown (t.pattern pc) o t.tl.toNat) }

/-- PERCEPTRON.TRAIN with the history register in the other bit order: weight `i` pairs with slot `i` still. -/
def Perceptron.trainDown (p : Perceptron) (pc : Word) (o : BranchOutcome) : Perceptron :=
  { p.train pc o with phr := histShiftDown p.phr o p.h.toNat }

/-- In each training of the sequence the votes disagree and the local vote equals the outcome
(44_tournament.md R177). -/
def Tournament.LocalWins (t : Tournament) : List Training → Prop
  | [] => True
  | (pc, o) :: rest =>
      t.globalVote ≠ t.localVote pc ∧ t.localVote pc = o ∧ Tournament.LocalWins (t.train pc o) rest

/-- The records of 45_perceptron.md R209: `n` records at one pc with outcomes T, N, T, N, …, each a PREDICT and
then a TRAIN (70_reset_and_hazards.md R255). -/
def alternation (pc : Word) (n : Nat) : List Request :=
  (List.range n).flatMap fun k => [requestWord 1 false pc, requestWord 2 (k % 2 == 0) pc]

end Sys2Proof.Machine
end

