-- ==== Sys2Proof/Certificates/Slice0/Obligations.lean ====
section
/-! DEFINITION. The statements for the provers. -/

open Sys2Proof Sys2Proof.Machine

/-! ### Encoding -/

/-- Decoding the encoding of a request gives the request back, in every scheme it belongs to (30_encoding.md
R70, R71, R74, R79). The bits the encoder writes where a request ignores them are the model's choice (log 18). -/
def Obligations.DecodeEncodeRoundTrip : Prop :=
  ∀ (sch : Scheme) (i : Instr), i.wellFormed sch = true → decode sch (encode i) = i

/-- 30_encoding.md R76 and R74: the operation code, which is the word divided by 2^33, selects the operation, and
SCHEME selects its rule. -/
def Obligations.OperationCodeAloneSelectsTheOperation : Prop :=
  ∀ (sch : Scheme) (req : Request),
    (req.toNat / 2 ^ 33 = 0 → decode sch req = .nop) ∧
    (req.toNat / 2 ^ 33 = 1 → decode sch req =
      match sch with
      | .static => .staticPredict (BitVec.ofNat 32 req.toNat)
      | .gshare => .gsharePredict (BitVec.ofNat 32 req.toNat)
      | .tournament => .tournamentPredict (BitVec.ofNat 32 req.toNat)
      | .perceptron => .perceptronPredict (BitVec.ofNat 32 req.toNat)) ∧
    (req.toNat / 2 ^ 33 = 2 → decode sch req =
      match sch with
      | .static => .staticTrain (BitVec.ofNat 32 req.toNat) (decide (req.toNat / 2 ^ 32 % 2 = 1))
      | .gshare => .gshareTrain (BitVec.ofNat 32 req.toNat) (decide (req.toNat / 2 ^ 32 % 2 = 1))
      | .tournament => .tournamentTrain (BitVec.ofNat 32 req.toNat) (decide (req.toNat / 2 ^ 32 % 2 = 1))
      | .perceptron => .perceptronTrain (BitVec.ofNat 32 req.toNat) (decide (req.toNat / 2 ^ 32 % 2 = 1))) ∧
    (req.toNat / 2 ^ 33 = 3 → decode sch req = .reserved) ∧
    req.toNat / 2 ^ 33 < 4

/-- 30_encoding.md R73: bit 32 of a PREDICT and bits 32:0 of a NOP or a reserved word are ignored. -/
def Obligations.DontCareBitsAreIgnored : Prop :=
  ∀ (sch : Scheme) (a b : Request),
    (a.toNat / 2 ^ 33 = 1 → b.toNat / 2 ^ 33 = 1 → a.toNat % 2 ^ 32 = b.toNat % 2 ^ 32 →
      decode sch a = decode sch b) ∧
    (a.toNat / 2 ^ 33 = 0 → b.toNat / 2 ^ 33 = 0 → decode sch a = decode sch b) ∧
    (a.toNat / 2 ^ 33 = 3 → b.toNat / 2 ^ 33 = 3 → decode sch a = decode sch b)

/-- 30_encoding.md R81: the word as a number, the words of PREDICT and TRAIN, and the span of the reserved code. -/
def Obligations.WordArithmetic : Prop :=
  (∀ req : Request, req.toNat =
      (opField req).toNat * 2 ^ 33 + (oField req).toNat * 2 ^ 32 + (pcField req).toNat) ∧
  (∀ pc : Word,
    (encode (.staticPredict pc)).toNat = 0x200000000 + pc.toNat ∧
    (encode (.gsharePredict pc)).toNat = 0x200000000 + pc.toNat ∧
    (encode (.tournamentPredict pc)).toNat = 0x200000000 + pc.toNat ∧
    (encode (.perceptronPredict pc)).toNat = 0x200000000 + pc.toNat) ∧
  (∀ (pc : Word) (o : BranchOutcome),
    (encode (.staticTrain pc o)).toNat = (if o then 0x500000000 else 0x400000000) + pc.toNat ∧
    (encode (.gshareTrain pc o)).toNat = (if o then 0x500000000 else 0x400000000) + pc.toNat ∧
    (encode (.tournamentTrain pc o)).toNat = (if o then 0x500000000 else 0x400000000) + pc.toNat ∧
    (encode (.perceptronTrain pc o)).toNat = (if o then 0x500000000 else 0x400000000) + pc.toNat) ∧
  (∀ (sch : Scheme) (req : Request),
    decode sch req = .reserved ↔ 0x600000000 ≤ req.toNat ∧ req.toNat ≤ 0x7FFFFFFFF)

/-- The nine words of the table V-ENC of 95_test_vectors.md, written out, decode as it says, in some scheme; so do
four more, so that every row of the opcode table has a word. -/
def Obligations.TableWordsDecode : Prop :=
  decode .gshare 0x000000000 = .nop ∧ decode .static 0x0FFFFFFFF = .nop ∧ decode .perceptron 0x123456789 = .nop ∧
  decode .static 0x200001000 = .staticPredict 0x1000 ∧ decode .static 0x400001000 = .staticTrain 0x1000 false ∧
  decode .gshare 0x300001000 = .gsharePredict 0x1000 ∧ decode .gshare 0x500000004 = .gshareTrain 4 true ∧
  decode .tournament 0x200000010 = .tournamentPredict 0x10 ∧
  decode .tournament 0x4DEADBEEF = .tournamentTrain 0xDEADBEEF false ∧
  decode .perceptron 0x200000003 = .perceptronPredict 3 ∧
  decode .perceptron 0x5DEADBEEF = .perceptronTrain 0xDEADBEEF true ∧
  decode .gshare 0x600000000 = .reserved ∧ decode .tournament 0x7FFFFFFFF = .reserved

/-! ### The counter and the history registers -/

/-- 40_counter.md R101, R102, R103: the codes of the four states, the transition as saturating arithmetic on
them, and the prediction as bit 1. -/
def Obligations.CounterIsSaturatingArithmetic : Prop :=
  (counterBits .snt = 0 ∧ counterBits .wnt = 1 ∧ counterBits .wt = 2 ∧ counterBits .st = 3 ∧
    ∀ b, counterBits (counterOfBits b) = b) ∧
  (∀ (c : Counter) (o : BranchOutcome), (counterBits (ctrNext c o)).toNat =
    if o then min ((counterBits c).toNat + 1) 3 else (counterBits c).toNat - 1) ∧
  (∀ c : Counter, ctrPred c = (counterBits c).getLsbD 1)

/-- 40_counter.md R104, laws (a) to (f). -/
def Obligations.CounterLaws : Prop :=
  (ctrNext .snt false = .snt ∧ ctrNext .st true = .st) ∧
  ctrNext (ctrNext .wnt true) true = .st ∧
  (∀ c, ctrNext (ctrNext (ctrNext c true) true) true = .st ∧
    ctrNext (ctrNext (ctrNext c false) false) false = .snt) ∧
  (∀ c o, c = .wnt ∨ c = .wt ∨ (c = .st ∧ o = true) ∨ (c = .snt ∧ o = false) → ctrPred (ctrNext c o) = o) ∧
  ((ctrPred (ctrNext .st false) = true ∧ ctrPred (ctrNext (ctrNext .st false) false) = false) ∧
    (ctrPred (ctrNext .snt true) = false ∧ ctrPred (ctrNext (ctrNext .snt true) true) = true)) ∧
  (∀ c, (counterBits (ctrNext c true)).toNat = min ((counterBits c).toNat + 1) 3 ∧
    (counterBits (ctrNext c false)).toNat = (counterBits c).toNat - 1)

/-- 41_history.md R121 and R122, bit by bit: the newest outcome enters at bit 0, the others move up by one and
the oldest is lost; the value of the `k` newest bits. -/
def Obligations.HistoryShiftsAtBitZero : Prop :=
  (∀ (h : Nat) (o : BranchOutcome) (w i : Nat),
    (histShift h o w).testBit i = (decide (i < w) && (if i = 0 then o else h.testBit (i - 1)))) ∧
  (∀ h k i : Nat, (histVal h k).testBit i = (decide (i < k) && h.testBit i)) ∧
  (∀ h k : Nat, histVal h k < 2 ^ k)

/-- 41_history.md R120 for the three global registers: after a sequence of trainings from an empty register, bit
`i` is the outcome of the `(i+1)`-th most recent one, and 0 where there were fewer. -/
def Obligations.GlobalHistoryHoldsNewestOutcomes : Prop :=
  ∀ (ts : List Training) (i : Nat),
    (∀ g : Gshare, g.ghr = 0 → (g.after ts).ghr.testBit i =
      (decide (i < min g.hb.toNat 32) && ((ts.map Prod.snd).reverse.getD i false))) ∧
    (∀ t : Tournament, t.ghr = 0 → (t.after ts).ghr.testBit i =
      (decide (i < t.tg.toNat) && ((ts.map Prod.snd).reverse.getD i false))) ∧
    (∀ p : Perceptron, p.phr = 0 → (p.after ts).phr.testBit i =
      (decide (i < p.h.toNat) && ((ts.map Prod.snd).reverse.getD i false)))

/-- 10_state.md R30 and 41_history.md R124: entry `j` of the local history table holds the outcomes trained at
the pcs whose low `PI` bits are `j`, the newest at bit 0, and no others. -/
def Obligations.LocalHistoryHoldsItsSlotsOutcomes : Prop :=
  ∀ (t : Tournament) (ts : List Training) (j i : Nat), t.lht = [] →
    (Table.read (t.after ts).lht 0 j).testBit i =
      (decide (i < t.tl.toNat) &&
        ((ts.filter (fun x => x.1.toNat % 2 ^ t.pi.toNat == j)).map Prod.snd).reverse.getD i false)

/-! ### The requests -/

/-- 30_encoding.md R75: `op = 00` is NOP, which leaves every piece of state as it is and answers nothing; while
`err = 1` it is refused, which changes nothing either. -/
def Obligations.NopSkips : Prop :=
  (∀ sch req, opField req = 0 → decode sch req = .nop) ∧
  ∀ s : State,
    (s.Ready → exec .nop s = .next { s with resp := none }) ∧
    (s.inst ≠ .unbuilt → s.err = true → exec .nop s = .next { s with resp := none })

/-- 60_exceptions.md R233: a request with `op = 11` raises OpFault: `err` is 1 and `err_code` 2; no predictor
state changes and there is no prediction. -/
def Obligations.ReservedRequestRaisesOpFault : Prop :=
  (∀ sch req, opField req = 3 → decode sch req = .reserved) ∧
  ∀ s : State, s.Ready →
    exec .reserved s = .next { s with err := true, errCode := 2, resp := none }

/-- 42_static.md R140: STATIC.PREDICT answers Taken whatever the pc, and changes nothing; refused while faulted. -/
def Obligations.StaticPredictsTaken : Prop :=
  (∀ req, opField req = 1 → decode .static req = .staticPredict (pcField req)) ∧
  ∀ (s : State) (pc : Word), s.inst = .static →
    (s.err = false → exec (.staticPredict pc) s = .next { s with resp := some true }) ∧
    (s.err = true → exec (.staticPredict pc) s = .next { s with resp := none })

/-- 42_static.md R141: STATIC.TRAIN changes nothing, whatever the pc and the outcome; refused while faulted. -/
def Obligations.StaticTrainSkips : Prop :=
  (∀ req, opField req = 2 → decode .static req = .staticTrain (pcField req) (oField req)) ∧
  ∀ (s : State) (pc : Word) (o : BranchOutcome), s.inst = .static →
    (s.err = false → exec (.staticTrain pc o) s = .next { s with resp := none }) ∧
    (s.err = true → exec (.staticTrain pc o) s = .next { s with resp := none })

/-- 43_gshare.md R150 and R152: GSHARE.PREDICT answers the prediction of the counter at the pc XOR the history,
in HBe bits, and changes nothing; refused while faulted; where the counter was never trained it holds INIT_GS,
which is SNT or WNT, so the answer is NotTaken. -/
def Obligations.GsharePredictReadsTheIndexedCounter : Prop :=
  (∀ req, opField req = 1 → decode .gshare req = .gsharePredict (pcField req)) ∧
  ∀ (s : State) (g : Gshare) (pc : Word), s.inst = .gshare g →
    let hbe := min g.hb.toNat 32
    let i := (pc.toNat ^^^ (g.ghr % 2 ^ hbe)) % 2 ^ hbe
    (s.err = false → exec (.gsharePredict pc) s =
      .next { s with resp := some (ctrPred (Table.read g.pht g.initGs i)) }) ∧
    (g.Sound → Table.read g.pht g.initGs i = g.initGs → s.err = false →
      exec (.gsharePredict pc) s = .next { s with resp := some false }) ∧
    (s.err = true → exec (.gsharePredict pc) s = .next { s with resp := none })

/-- 43_gshare.md R153: GSHARE.TRAIN moves the one counter at the index of the pre-update history and shifts the
outcome into the history; every other counter and the parameters stay; refused while faulted. -/
def Obligations.GshareTrainMovesOneCounterAndShifts : Prop :=
  (∀ req, opField req = 2 → decode .gshare req = .gshareTrain (pcField req) (oField req)) ∧
  ∀ (s : State) (g : Gshare) (pc : Word) (o : BranchOutcome), s.inst = .gshare g → g.Sound →
    let hbe := min g.hb.toNat 32
    let i := (pc.toNat ^^^ (g.ghr % 2 ^ hbe)) % 2 ^ hbe
    (s.err = false → ∃ g' : Gshare,
      exec (.gshareTrain pc o) s = .next { s with inst := .gshare g', resp := none } ∧
      g'.hb = g.hb ∧ g'.initGs = g.initGs ∧
      g'.ghr = (2 * g.ghr + (if o then 1 else 0)) % 2 ^ hbe ∧
      ∀ j, Table.read g'.pht g.initGs j =
        if j = i then ctrNext (Table.read g.pht g.initGs i) o else Table.read g.pht g.initGs j) ∧
    (s.err = true → exec (.gshareTrain pc o) s = .next { s with resp := none })

/-- 44_tournament.md R170 to R173 and R175: TOURNAMENT.PREDICT answers the local vote where META is on the Taken
side, else the global vote, and changes nothing; refused while faulted. -/
def Obligations.TournamentPredictChoosesAVote : Prop :=
  (∀ req, opField req = 1 → decode .tournament req = .tournamentPredict (pcField req)) ∧
  ∀ (s : State) (t : Tournament) (pc : Word), s.inst = .tournament t →
    let gi := t.ghr % 2 ^ t.tg.toNat
    let lp := Table.read t.lht 0 (pc.toNat % 2 ^ t.pi.toNat)
    let gv := ctrPred (Table.read t.gct t.initTg gi)
    let lv := ctrPred (Table.read t.lct t.initTl lp)
    (s.err = false → exec (.tournamentPredict pc) s =
      .next { s with resp := some (if ctrPred t.metaCtr then lv else gv) }) ∧
    (s.err = true → exec (.tournamentPredict pc) s = .next { s with resp := none })

/-- 44_tournament.md R174 and R176: TOURNAMENT.TRAIN. META moves only where the votes disagree, to Taken where
the local vote was right and to NotTaken where the global one was; one global counter, the global history, the
local counter at the pre-update pattern and the pattern of the slot change; every other entry and the parameters
stay; refused while faulted. -/
def Obligations.TournamentTrainUpdatesFromPreUpdateState : Prop :=
  (∀ req, opField req = 2 → decode .tournament req = .tournamentTrain (pcField req) (oField req)) ∧
  ∀ (s : State) (t : Tournament) (pc : Word) (o : BranchOutcome), s.inst = .tournament t → t.Sound →
    let gi := t.ghr % 2 ^ t.tg.toNat
    let li := pc.toNat % 2 ^ t.pi.toNat
    let lp := Table.read t.lht 0 li
    let gv := ctrPred (Table.read t.gct t.initTg gi)
    let lv := ctrPred (Table.read t.lct t.initTl lp)
    (s.err = false → ∃ t' : Tournament,
      exec (.tournamentTrain pc o) s = .next { s with inst := .tournament t', resp := none } ∧
      (t'.tg = t.tg ∧ t'.tl = t.tl ∧ t'.pi = t.pi ∧ t'.initTg = t.initTg ∧ t'.initTl = t.initTl ∧
        t'.initMeta = t.initMeta) ∧
      (gv = lv → t'.metaCtr = t.metaCtr) ∧
      (gv ≠ lv → lv = o → t'.metaCtr = ctrNext t.metaCtr true) ∧
      (gv ≠ lv → gv = o → t'.metaCtr = ctrNext t.metaCtr false) ∧
      (∀ j, Table.read t'.gct t.initTg j =
        if j = gi then ctrNext (Table.read t.gct t.initTg gi) o else Table.read t.gct t.initTg j) ∧
      t'.ghr = (2 * t.ghr + (if o then 1 else 0)) % 2 ^ t.tg.toNat ∧
      (∀ j, Table.read t'.lct t.initTl j =
        if j = lp then ctrNext (Table.read t.lct t.initTl lp) o else Table.read t.lct t.initTl j) ∧
      (∀ j, Table.read t'.lht 0 j =
        if j = li then (2 * lp + (if o then 1 else 0)) % 2 ^ t.tl.toNat else Table.read t.lht 0 j)) ∧
    (s.err = true → exec (.tournamentTrain pc o) s = .next { s with resp := none })

/-- 45_perceptron.md R200 to R203: PERCEPTRON.PREDICT answers Taken where the sum of the signed weights of the
pc's bucket, wrapped to 32 bits, is above 0, and changes nothing; refused while faulted. -/
def Obligations.PerceptronPredictIsTheSignOfTheScore : Prop :=
  (∀ req, opField req = 1 → decode .perceptron req = .perceptronPredict (pcField req)) ∧
  ∀ (s : State) (p : Perceptron) (pc : Word), s.inst = .perceptron p →
    let b := (HashTable.apply p.percHash pc).toNat % p.n.toNat
    let row := Table.read p.w (List.replicate p.h.toNat 0) b
    let sum : Int := ∑ i ∈ Finset.range p.h.toNat,
      (if p.phr.testBit i then 1 else -1) * (row.getD i 0).toInt
    (s.err = false → exec (.perceptronPredict pc) s =
      .next { s with resp := some (decide (0 < sum.bmod (2 ^ 32))) }) ∧
    (s.err = true → exec (.perceptronPredict pc) s = .next { s with resp := none })

/-- 45_perceptron.md R204 to R206: PERCEPTRON.TRAIN. Where the sign of the score is not the outcome's or its
magnitude is below THETA, each weight of the pc's bucket moves by one, towards agreement of its slot with the
outcome, wrapping at 32 bits; else no weight changes; no other bucket changes; the history shifts always; the
parameters stay; refused while faulted. -/
def Obligations.PerceptronTrainMovesOneRowAndShifts : Prop :=
  (∀ req, opField req = 2 → decode .perceptron req = .perceptronTrain (pcField req) (oField req)) ∧
  ∀ (s : State) (p : Perceptron) (pc : Word) (o : BranchOutcome), s.inst = .perceptron p → p.Sound →
    let zero : List Weight := List.replicate p.h.toNat 0
    let b := (HashTable.apply p.percHash pc).toNat % p.n.toNat
    let x : Nat → Int := fun i => if p.phr.testBit i then 1 else -1
    let t : Int := if o then 1 else -1
    let score : Int := (∑ i ∈ Finset.range p.h.toNat, x i * ((Table.read p.w zero b).getD i 0).toInt).bmod (2 ^ 32)
    let trains : Prop := score.sign ≠ t ∨ score.natAbs < p.theta.toNat
    (s.err = false → ∃ p' : Perceptron,
      exec (.perceptronTrain pc o) s = .next { s with inst := .perceptron p', resp := none } ∧
      (p'.h = p.h ∧ p'.n = p.n ∧ p'.theta = p.theta ∧ p'.percHash = p.percHash) ∧
      p'.phr = (2 * p.phr + (if o then 1 else 0)) % 2 ^ p.h.toNat ∧
      (∀ c i, c ≠ b ∨ ¬ trains →
        (Table.read p'.w zero c).getD i 0 = (Table.read p.w zero c).getD i 0) ∧
      (∀ i, i < p.h.toNat → trains →
        ((Table.read p'.w zero b).getD i 0).toInt =
          (((Table.read p.w zero b).getD i 0).toInt + t * x i).bmod (2 ^ 32))) ∧
    (s.err = true → exec (.perceptronTrain pc o) s = .next { s with resp := none })

/-- What any request leaves unchanged when it answers a next state: nothing but a TRAIN changes the instance,
nothing but the reserved request changes the status pair, no request changes a parameter, and the model's own
fields that a request has no business with stay. -/
def Obligations.RequestFrame : Prop :=
  ∀ (i : Instr) (s t : State), exec i s = .next t →
    t.inbox = s.inbox ∧ t.powerUps = s.powerUps ∧ t.inst.parameters = s.inst.parameters ∧
    (i ≠ .reserved → t.err = s.err ∧ t.errCode = s.errCode) ∧
    (t.inst ≠ s.inst → s.err = false ∧ ∃ (sch : Scheme) (pc : Word) (o : BranchOutcome),
      s.inst.scheme = some sch ∧ i = decodeTrain sch pc o) ∧
    (t.resp ≠ none → s.err = false ∧ ∃ (sch : Scheme) (pc : Word),
      s.inst.scheme = some sch ∧ i = decodePredict sch pc)

/-! ### The perceptron's arithmetic -/

/-- 45_perceptron.md R201: accumulating the terms in any order and wrapping after each addition gives the score. -/
def Obligations.ScoreIsOrderIndependent : Prop :=
  ∀ (p : Perceptron) (pc : Word) (terms : List Int), terms.Perm (p.terms (p.bucket pc)) →
    terms.foldl (fun acc x => wrap32 (acc + x)) 0 = p.score pc

/-- 45_perceptron.md R204, R206: training is skipped exactly where the outcome has the sign of the score and the
magnitude, which is at most 2^31, is THETA or more; so a THETA above 2^31 always trains. -/
def Obligations.TrainingSkippedOnlyWhenRightAndConfident : Prop :=
  ∀ (p : Perceptron) (pc : Word) (o : BranchOutcome),
    (p.trainCond pc o = false ↔
      ((0 < p.score pc ∧ o = true) ∨ (p.score pc < 0 ∧ o = false)) ∧ p.theta.toNat ≤ (p.score pc).natAbs) ∧
    (p.score pc).natAbs ≤ 2 ^ 31 ∧
    (2 ^ 31 < p.theta.toNat → p.trainCond pc o = true)

/-- 45_perceptron.md R208: with THETA = 0 and all weights 0, a PREDICT answers NotTaken and a TRAIN trains for
both outcomes, whatever the history. -/
def Obligations.PerceptronFirstCall : Prop :=
  ∀ (s : State) (p : Perceptron) (pc : Word) (o : BranchOutcome),
    s.inst = .perceptron p → s.err = false → p.Sound → p.theta = 0 → (∀ b i, p.weight b i = 0) →
    exec (.perceptronPredict pc) s = .next { s with resp := some false } ∧
    p.trainCond pc o = true ∧
    ∃ p' : Perceptron, exec (.perceptronTrain pc o) s = .next { s with inst := .perceptron p', resp := none } ∧
      ∀ i, i < p.h.toNat → p'.weight (p.bucket pc) i = pm o * p.slotSign i

/-- 45_perceptron.md R209: one slot, one bucket, a strictly alternating outcome at one pc from reset. Every answer
after the first is right, and the weight falls by one a record until its magnitude is THETA, but at least once.
THETA is kept below 2^31, where no weight wraps. -/
def Obligations.PerceptronLearnsAlternation : Prop :=
  ∀ (c : Config) (pc theta : Word) (n : Nat),
    c.scheme = some .perceptron → c.h = some 1 → c.n = some 1 → c.theta = some theta → theta.toNat < 2 ^ 31 →
    ∃ (t : State) (p : Perceptron),
      runFromReset c (alternation pc n) =
        .next ((List.range n).map (fun k => decide (k ≠ 0) && decide (k % 2 = 0)), t) ∧
      t.inst = .perceptron p ∧ t.err = false ∧
      p.weight 0 0 = -(min n (max 1 theta.toNat) : Nat)

/-! ### Indices -/

/-- 60_exceptions.md R234: every index a request forms is inside its array. -/
def Obligations.IndicesAreInRange : Prop :=
  ∀ pc : Word,
    (∀ g : Gshare, g.index pc < 2 ^ min g.hb.toNat 32) ∧
    (∀ t : Tournament, t.Sound → t.globalIndex < 2 ^ t.tg.toNat ∧ t.slot pc < 2 ^ t.pi.toNat ∧
      t.pattern pc < 2 ^ t.tl.toNat) ∧
    (∀ p : Perceptron, p.Sound → p.bucket pc < p.n.toNat)

/-- 43_gshare.md R151: HB = 0 indexes entry 0; for HB from 1 to 31 only the low HB bits of the pc and the HB
newest outcomes count; for HB of 32 or more the index is pc XOR GHR_gs. -/
def Obligations.GshareIndexCorners : Prop :=
  ∀ (g : Gshare) (pc : Word),
    (g.hb.toNat = 0 → g.index pc = 0) ∧
    (∀ (g' : Gshare) (pc' : Word), g.hb.toNat ≤ 31 → g'.hb = g.hb →
      pc'.toNat % 2 ^ g.hb.toNat = pc.toNat % 2 ^ g.hb.toNat →
      g'.ghr % 2 ^ g.hb.toNat = g.ghr % 2 ^ g.hb.toNat → g'.index pc' = g.index pc) ∧
    (32 ≤ g.hb.toNat → g.ghr < 2 ^ 32 → g.index pc = pc.toNat ^^^ g.ghr)

/-- 41_history.md R124: pcs with the same low PI bits are one branch to a tournament instance. -/
def Obligations.TournamentAliasesShareASlot : Prop :=
  ∀ (t : Tournament) (pc pc' : Word) (o : BranchOutcome),
    pc'.toNat % 2 ^ t.pi.toNat = pc.toNat % 2 ^ t.pi.toNat →
    t.choice pc' = t.choice pc ∧ t.train pc' o = t.train pc o

/-- 43_gshare.md R152: where no training of a sequence used the index a PREDICT reads, the counter there still
holds INIT_GS and the answer is NotTaken. -/
def Obligations.UnseenIndexPredictsNotTaken : Prop :=
  ∀ (g : Gshare) (ts : List Training) (pc : Word), g.Sound → g.pht = [] →
    (∀ k, k < ts.length → ∀ x, ts[k]? = some x → (g.after (ts.take k)).index x.1 ≠ (g.after ts).index pc) →
    (g.after ts).predict pc = false

/-- Every function of a u32 is a PERC_HASH of the model. The form it is kept in is the model's choice (log 8). -/
def Obligations.EveryHashFunctionIsRepresented : Prop :=
  ∀ f : Word → Word, ∃ h : HashTable, ∀ pc, HashTable.apply h pc = f pc

/-! ### Faults -/

/-- 60_exceptions.md R235: fault entry: the first fault sets `err` and the code of its class, a later one leaves
both; nothing else is saved; the faulting request changes no predictor state. -/
def Obligations.FaultEntryKeepsTheFirstFault : Prop :=
  ∀ s : State,
    (s.Ready → ∃ t, exec .reserved s = .next t ∧ t = (s.raise .opFault).silent ∧ t.inst = s.inst) ∧
    (s.err = false → s.raise .cfgFault = { s with err := true, errCode := 1 } ∧
      s.raise .opFault = { s with err := true, errCode := 2 }) ∧
    (s.err = true → ∀ f, s.raise f = s)

/-- 60_exceptions.md R236: while `err = 1` every request is refused: no state changes, no answer, no new fault. -/
def Obligations.FaultedBlockRefusesEveryRequest : Prop :=
  ∀ s : State, s.inst ≠ .unbuilt → s.err = true →
    (∀ i : Instr, exec i s = .next { s with resp := none }) ∧
    (∀ (req : Request) (rest : List PortEvent), s.inbox = .request req :: rest →
      step s = .next { s with inbox := rest, resp := none }) ∧
    (∀ reqs : List Request, ∃ t : State, runRequests s reqs = .next ([], t) ∧
      t.inst = s.inst ∧ t.err = true ∧ t.errCode = s.errCode)

/-- 60_exceptions.md R230: `err` is set only by a reset whose check fails, with code 1, and by a reserved request,
with code 2. A loss of power leaves it unspecified (log 11). -/
def Obligations.OnlyTwoFaultClassesSetErr : Prop :=
  ∀ s t : State, step s = .next t → s.err = false → t.err = true →
    (∃ c q rest, s.inbox = .reset c q :: rest ∧ c.wellFormed = false ∧ t.errCode = 1) ∨
    (∃ req rest, s.inbox = .request req :: rest ∧ isReserved req = true ∧ t.errCode = 2) ∨
    (∃ rest, s.inbox = .powerLoss :: rest)

/-- 10_state.md R23, 60_exceptions.md R238: only a reset whose check passes brings `err` back to 0. A loss of
power leaves it unspecified (log 11). -/
def Obligations.OnlyResetClearsErr : Prop :=
  ∀ s t : State, step s = .next t → s.err = true → t.err = false →
    (∃ c q rest, s.inbox = .reset c q :: rest ∧ c.wellFormed = true ∧ t.errCode = 0) ∨
    (∃ rest, s.inbox = .powerLoss :: rest)

/-- 60_exceptions.md R230: PREDICT, TRAIN and NOP on an instance that is not faulted never fault: the step
answers a next state that takes requests again. -/
def Obligations.HealthyBlockNeverFaultsOnAnOperation : Prop :=
  ∀ (s : State) (req : Request) (rest : List PortEvent), s.Ready → s.inbox = .request req :: rest →
    isReserved req = false → ∃ t, step s = .next t ∧ t.Ready ∧ t.errCode = s.errCode ∧ t.inbox = rest ∧
      (t.resp ≠ none ↔ isPredict req = true)

/-- The machine stops only on a request before a reset (70_reset_and_hazards.md R251; log 10), there always, and it
never refuses a step by name. -/
def Obligations.StuckExactlyBeforeReset : Prop :=
  ∀ s : State,
    (∀ f, step s = .fault f ↔ s.inst = .unbuilt ∧ (∃ req rest, s.inbox = .request req :: rest) ∧
      f = .requestBeforeReset) ∧
    (∀ r, step s ≠ .refused r) ∧
    (s.inst = .unbuilt → ∀ i : Instr, exec i s = .fault .requestBeforeReset)

/-- A request of a scheme the instance does not implement has no meaning there (00_scope.md R2, log 12). -/
def Obligations.OtherSchemesDoNotExist : Prop :=
  ∀ (s : State) (i : Instr) (sch : Scheme), s.Ready → i.scheme = some sch → s.inst.scheme ≠ some sch →
    exec i s = .refused .schemeNotBuilt

/-! ### Reset -/

/-- 60_exceptions.md R232: the configurations a reset accepts. A missing parameter is `none`, and the parameters of
other schemes are not looked at (log 13). -/
def Obligations.ConfigurationCheck : Prop :=
  ∀ c : Config, (buildInstance c).isSome = true ↔
    c.scheme = some .static ∨
    (c.scheme = some .gshare ∧ c.hb.isSome = true ∧ (c.initGs = .snt ∨ c.initGs = .wnt)) ∨
    (c.scheme = some .tournament ∧ ∃ tg tl pi, c.tg = some tg ∧ c.tl = some tl ∧ c.pi = some pi ∧
      tg.toNat ≤ 32 ∧ tl.toNat ≤ 32 ∧ pi.toNat ≤ 32) ∨
    (c.scheme = some .perceptron ∧ c.theta.isSome = true ∧ ∃ h n, c.h = some h ∧ c.n = some n ∧
      1 ≤ h.toNat ∧ 1 ≤ n.toNat)

/-- 10_state.md R39: after a reset whose check passes, `err` and `err_code` are 0, no answer stands, and the
instance is of the scheme and the parameters given, with every element at the value of the table. -/
def Obligations.ResetValues : Prop :=
  ∀ (s : State) (c : Config) (q : Option Request) (rest : List PortEvent),
    s.inbox = .reset c q :: rest → c.wellFormed = true →
    ∃ i : Instance,
      step s = .next { s with inst := i, err := false, errCode := 0, resp := none, inbox := rest } ∧
      (c.scheme = some .static → i = .static) ∧
      (c.scheme = some .gshare → ∃ g : Gshare, i = .gshare g ∧ c.hb = some g.hb ∧ g.initGs = c.initGs ∧
        g.ghr = 0 ∧ ∀ j, Table.read g.pht g.initGs j = c.initGs) ∧
      (c.scheme = some .tournament → ∃ t : Tournament, i = .tournament t ∧
        c.tg = some t.tg ∧ c.tl = some t.tl ∧ c.pi = some t.pi ∧
        t.initTg = c.initTg ∧ t.initTl = c.initTl ∧ t.initMeta = c.initMeta ∧
        t.ghr = 0 ∧ (∀ j, Table.read t.gct t.initTg j = c.initTg) ∧ (∀ j, Table.read t.lht 0 j = 0) ∧
        (∀ j, Table.read t.lct t.initTl j = c.initTl) ∧ t.metaCtr = c.initMeta) ∧
      (c.scheme = some .perceptron → ∃ p : Perceptron, i = .perceptron p ∧
        c.h = some p.h ∧ c.n = some p.n ∧ c.theta = some p.theta ∧ p.percHash = c.percHash ∧
        p.phr = 0 ∧ ∀ b k, p.weight b k = 0)

/-- 10_state.md R40: after a reset whose check fails, `err` is 1 and `err_code` 1, there is no predictor state,
and every request is refused. -/
def Obligations.FailedResetRefusesEverything : Prop :=
  ∀ (s : State) (c : Config) (q : Option Request) (rest : List PortEvent),
    s.inbox = .reset c q :: rest → c.wellFormed = false →
    ∃ t : State, step s = .next t ∧
      t = { s with inst := .invalid c, err := true, errCode := 1, resp := none, inbox := rest } ∧
      ∀ reqs : List Request, runRequests t reqs = .next ([], { t with inbox := [] })

/-- 70_reset_and_hazards.md R250, R253: a reset discards all earlier state and faults and the request offered
with it: what follows depends on the configuration alone. -/
def Obligations.ResetDiscardsEverything : Prop :=
  ∀ (s s' : State) (c : Config) (q q' : Option Request) (rest : List PortEvent),
    s.inbox = .reset c q :: rest → s'.inbox = .reset c q' :: rest → s'.powerUps = s.powerUps →
    step s' = step s

/-- 60_exceptions.md R243, 70_reset_and_hazards.md R251: after a loss of power there is no instance, and every
request is stuck until a reset, which gives what it gives from any state. That a loss of power is an event of
its own is the model's choice (log 11). -/
def Obligations.PowerLossNeedsAReset : Prop :=
  ∀ (s : State) (rest : List PortEvent), s.inbox = .powerLoss :: rest →
    ∃ t, step s = .next t ∧ t.inst = .unbuilt ∧ t.resp = none ∧ t.inbox = rest ∧
      (∀ req, step { t with inbox := [.request req] } = .fault .requestBeforeReset) ∧
      (∀ c, t.applyReset c = { s with powerUps := t.powerUps, inbox := rest }.applyReset c)

/-- The invariant of the machine holds right after reset. -/
def Obligations.ResetStateKeepsTheInvariant : Prop :=
  State.reset.Inv ∧ ∀ (s : State) (c : Config), (s.applyReset c).Inv

/-- Every step keeps the invariant of the machine: the arrays stay canonical and inside their sizes, the history
registers inside their widths, the status pair legal (never code 3), and no answer stands while faulted. -/
def Obligations.StepKeepsTheInvariant : Prop :=
  ∀ s t : State, s.Inv → step s = .next t → t.Inv

/-- 10_state.md R24: no operation writes a parameter: only a reset or a loss of power changes them. -/
def Obligations.ParametersAreReadOnly : Prop :=
  ∀ s t : State, step s = .next t → t.inst.parameters ≠ s.inst.parameters →
    (∃ c q rest, s.inbox = .reset c q :: rest) ∨ ∃ rest, s.inbox = .powerLoss :: rest

/-- 20_memory.md R60: only a TRAIN and a reset change the predictor state (and a loss of power, after which there
is none). -/
def Obligations.OnlyTrainAndResetChangeThePredictor : Prop :=
  ∀ s t : State, step s = .next t → t.inst ≠ s.inst →
    (∃ req rest, s.inbox = .request req :: rest ∧ isTrain req = true) ∨
    (∃ c q rest, s.inbox = .reset c q :: rest) ∨ ∃ rest, s.inbox = .powerLoss :: rest

/-! ### Steps and runs -/

/-- A step on a request runs the decoded request, SCHEME being the instance's (30_encoding.md R74); a well-formed
instruction's own word runs that instruction; `withFetchWord` offers exactly it (log 4). -/
def Obligations.StepRunsTheDecodedRequest : Prop :=
  ∀ (s : State) (sch : Scheme), s.inst.scheme = some sch →
    (∀ (req : Request) (rest : List PortEvent), s.inbox = .request req :: rest →
      step s = exec (decode sch req) { s with inbox := rest }) ∧
    (∀ (i : Instr) (rest : List PortEvent), i.wellFormed sch = true → s.inbox = .request (encode i) :: rest →
      step s = exec i { s with inbox := rest }) ∧
    (∀ w : Nat, w < 2 ^ 35 → step (s.withFetchWord 40 w) = exec (decode sch (BitVec.ofNat 35 w)) s)

/-- 60_exceptions.md R243: with nothing pending the block holds its state. That such a step exists and clears the
response ports is the model's (log 20). -/
def Obligations.IdleStepHoldsTheState : Prop :=
  ∀ s : State, s.inbox = [] → step s = .next { s with resp := none }

/-- 30_encoding.md R78, 70_reset_and_hazards.md R251, R253: a step at the ports of any block. With `rst` it is a
reset and the request offered is dropped; with nothing offered nothing changes (60_exceptions.md R243; that such a
step exists and clears the response ports is the model's, log 20). A request offered alone runs by its operation code
in an instance of a scheme, is stuck before a reset (log 10), and is refused after a failed one (log 9). -/
def Obligations.PortStepTakesWhatIsOffered : Prop :=
  ∀ (s : State) (c : Config) (p : PortIn),
    (p.rst = true → portStep c p s = .next ({ s with inbox := [] }.applyReset c)) ∧
    (p.rst = false → p.reqValid = false → portStep c p s = .next { s with inbox := [], resp := none }) ∧
    (p.rst = false → p.reqValid = true → s.inst = .unbuilt → portStep c p s = .fault .requestBeforeReset) ∧
    (p.rst = false → p.reqValid = true → ∀ c', s.inst = .invalid c' →
      portStep c p s = .next { s with inbox := [], resp := none }) ∧
    (p.rst = false → p.reqValid = true → ∀ sch, s.inst.scheme = some sch →
      portStep c p s =
        exec (if p.reqOp = 0 then .nop else if p.reqOp = 1 then decodePredict sch p.reqPc
              else if p.reqOp = 2 then decodeTrain sch p.reqPc p.reqO else .reserved) { s with inbox := [] })

/-- 20_memory.md R57: requests take effect one at a time in the order issued: a list of requests runs as its
first part and then its second. -/
def Obligations.RunsComposeInOrder : Prop :=
  ∀ (s : State) (first second : List Request),
    runRequests s (first ++ second) =
      match runRequests s first with
      | .next (a, t) =>
        match runRequests t second with
        | .next (b, u) => .next (a ++ b, u)
        | .fault f => .fault f
        | .refused r => .refused r
      | .fault f => .fault f
      | .refused r => .refused r

/-- 20_memory.md R55: a PREDICT writes nothing: two PREDICTs of one pc with no TRAIN (and no reserved request)
between them answer alike, and leave the instance and the status as they were. -/
def Obligations.PredictsWithoutTrainAgree : Prop :=
  ∀ (s : State) (a b : Request) (between : List Request), s.Ready →
    isPredict a = true → isPredict b = true → pcField a = pcField b →
    (∀ r ∈ between, isTrain r = false ∧ isReserved r = false) →
    ∃ x xs t, runRequests s (a :: (between ++ [b])) = .next (x :: (xs ++ [x]), t) ∧
      t.inst = s.inst ∧ t.err = s.err ∧ t.errCode = s.errCode

/-- 70_reset_and_hazards.md R257: dropping every PREDICT of a list of requests changes no state and no later
answer. -/
def Obligations.DroppingPredictsChangesNothing : Prop :=
  ∀ (s : State) (reqs later : List Request), s.inst.scheme.isSome = true →
    ∃ a b u u' t t',
      runRequests s reqs = .next (a, u) ∧
      runRequests s (reqs.filter fun r => !isPredict r) = .next ([], u') ∧
      u'.inst = u.inst ∧ u'.err = u.err ∧ u'.errCode = u.errCode ∧
      runRequests s (reqs ++ later) = .next (a ++ b, t) ∧
      runRequests s ((reqs.filter fun r => !isPredict r) ++ later) = .next (b, t') ∧
      t'.inst = t.inst ∧ t'.err = t.err ∧ t'.errCode = t.errCode

/-! ### Equivalent readings -/

/-- 10_state.md R36: the gshare with a sparse map, where an absent index reads as INIT_GS, gives the answers of
the model's run from reset, for every configuration and every list of requests. -/
def Obligations.SparseMapGivesTheSameAnswers : Prop :=
  ∀ (c : Config) (hb : Word) (reqs : List Request),
    c.scheme = some .gshare → c.hb = some hb → c.wellFormed = true →
    ∃ t, runFromReset c reqs =
      .next (answersOf SparseGshare.predict SparseGshare.train
        { hb := hb, initGs := c.initGs, ghr := 0, map := [] } reqs, t)

/-- 10_state.md R26 and C6: a history register of all HB bits and a dense table give the answers of the model's
run from reset, for every HB, also above 32. -/
def Obligations.FullWidthHistoryGivesTheSameAnswers : Prop :=
  ∀ (c : Config) (hb : Word) (reqs : List Request),
    c.scheme = some .gshare → c.hb = some hb → c.wellFormed = true →
    ∃ t, runFromReset c reqs =
      .next (answersOf WideGshare.predict WideGshare.train
        { hb := hb, ghr := 0, pht := fun _ => c.initGs } reqs, t)

/-- 10_state.md R38, D8, for one bijection of the bit orders, the reversed one: a TOURNAMENT instance as reset leaves
it gives the same answers with the newest outcome at the other end of every history register and pattern. -/
def Obligations.TournamentAnswersDoNotShowTheBitOrder : Prop :=
  ∀ (t : Tournament) (reqs : List Request),
    t.tg.toNat ≤ 32 → t.tl.toNat ≤ 32 → t.pi.toNat ≤ 32 →
    t.ghr = 0 → t.gct = [] → t.lht = [] → t.lct = [] →
    answersOf Tournament.choice Tournament.trainDown t reqs = answersOf Tournament.choice Tournament.train t reqs

/-- 10_state.md R38, D8, for one permutation of the slots, the reversed one: a PERCEPTRON instance as reset leaves it
gives the same answers with the newest outcome at the other end of the history register. -/
def Obligations.PerceptronAnswersDoNotShowTheBitOrder : Prop :=
  ∀ (p : Perceptron) (reqs : List Request), 1 ≤ p.n.toNat → p.phr = 0 → p.w = [] →
    answersOf Perceptron.pred Perceptron.trainDown p reqs = answersOf Perceptron.pred Perceptron.train p reqs

/-- 44_tournament.md R177: in a run of trainings that the local vote wins, META moves one step towards ST each
time; from the second on, or from the first where META did not start at SNT, a PREDICT answers the local vote, as
it does wherever META is on the Taken side. -/
def Obligations.MetaConvergesToTheLocalVote : Prop :=
  ∀ (t : Tournament) (ts : List Training), t.LocalWins ts →
    (counterBits (t.after ts).metaCtr).toNat = min ((counterBits t.metaCtr).toNat + ts.length) 3 ∧
    (2 ≤ ts.length ∨ (1 ≤ ts.length ∧ t.metaCtr ≠ .snt) →
      ∀ pc, (t.after ts).choice pc = (t.after ts).localVote pc) ∧
    (∀ pc, ctrPred t.metaCtr = true → t.choice pc = t.localVote pc)

/-- 10_state.md R35: the storage of each scheme, in bits. -/
def Obligations.StorageSizes : Prop :=
  Instance.storageBits .static = 0 ∧
  (∀ g : Gshare, Instance.storageBits (.gshare g) = min g.hb.toNat 32 + 2 ^ (min g.hb.toNat 32 + 1)) ∧
  (∀ t : Tournament, Instance.storageBits (.tournament t) =
    t.tg.toNat + 2 ^ (t.tg.toNat + 1) + t.tl.toNat * 2 ^ t.pi.toNat + 2 ^ (t.tl.toNat + 1) + 2) ∧
  (∀ p : Perceptron, Instance.storageBits (.perceptron p) = p.h.toNat + 32 * p.n.toNat * p.h.toNat)
end

