-- ==== Sys2Proof/Laws/Bits.lean ====
section
/-! SUPPORT. The laws of the bit notation, the history registers and the counter arrays. -/

namespace Sys2Proof.Machine

theorem and_mask (x w : Nat) : x &&& mask w = x % 2 ^ w := Nat.and_two_pow_sub_one_eq_mod x w

theorem and_mask_lt (x w : Nat) : x &&& mask w < 2 ^ w := by
  rw [and_mask]; exact Nat.mod_lt _ (Nat.two_pow_pos w)

theorem histVal_lt (h k : Nat) : histVal h k < 2 ^ k := and_mask_lt h k

theorem histShift_lt (h : Nat) (o : BranchOutcome) (w : Nat) : histShift h o w < 2 ^ w := and_mask_lt _ w

/-- The shift as arithmetic: twice the old value plus the new outcome, in `w` bits. -/
theorem histShift_eq (h : Nat) (o : BranchOutcome) (w : Nat) :
    histShift h o w = (2 * h + o.toNat) % 2 ^ w := by
  have ho : o.toNat < 2 ^ 1 := by cases o <;> decide
  rw [histShift, and_mask, Nat.shiftLeft_eq, Nat.pow_one, Nat.mul_comm, ← Nat.pow_one 2,
    Nat.two_pow_add_eq_or_of_lt ho]

/-- A value already of `w` bits is its own `w` newest bits. -/
theorem histVal_of_lt {h w : Nat} (hh : h < 2 ^ w) : histVal h w = h := by
  rw [histVal, and_mask, Nat.mod_eq_of_lt hh]

theorem wrap32_range (z : Int) : -2 ^ 31 ≤ wrap32 z ∧ wrap32 z < 2 ^ 31 := by
  have h1 := @Int.le_bmod z (2 ^ 32) (by decide)
  have h2 := @Int.bmod_lt z (2 ^ 32) (by decide)
  unfold wrap32
  omega

/-- Reading the pattern of an integer back gives the integer wrapped (00_scope.md R13). -/
theorem sint32_weightOf (z : Int) : sint32 (weightOf z) = wrap32 z := by
  simp [sint32, weightOf, wrap32, BitVec.toInt_ofInt]

theorem wrap32_of_range {z : Int} (h1 : -2 ^ 31 ≤ z) (h2 : z < 2 ^ 31) : wrap32 z = z := by
  unfold wrap32
  exact Int.bmod_eq_of_le (by omega) (by omega)


end Sys2Proof.Machine
end

