-- ==== Sys2Proof/Laws/Table.lean ====
section
/-! SUPPORT. The laws of an array: a read after a write, and the canonical form. -/

namespace Sys2Proof.Machine

variable {α : Type}

@[simp] theorem Table.read_nil (d : α) (i : Nat) : Table.read [] d i = d := rfl

/-- An index below every listed one reads the reset value. -/
theorem Table.read_of_lt {t : Table α} {d : α} {i : Nat} (h : ∀ e ∈ t, i < e.1) :
    Table.read t d i = d := by
  induction t with
  | nil => rfl
  | cons e t ih =>
    obtain ⟨j, v⟩ := e
    have hj : i < j := h (j, v) (by simp)
    rw [Table.read, if_neg (by omega)]
    exact ih fun e he => h e (List.mem_cons_of_mem _ he)

variable [DecidableEq α]

/-- The canonical form as a proposition. -/
theorem Table.wf_iff {t : Table α} {d : α} {n : Nat} :
    Table.wf t d n = true ↔
      t.Pairwise (fun a b => a.1 < b.1) ∧ ∀ e ∈ t, e.1 < n ∧ e.2 ≠ d := by
  simp [Table.wf]

theorem Table.wf_nil (d : α) (n : Nat) : Table.wf ([] : Table α) d n = true := by
  simp [Table.wf]

theorem Table.wf_tail {e : Nat × α} {t : Table α} {d : α} {n : Nat}
    (h : Table.wf (e :: t) d n = true) : Table.wf t d n = true := by
  rw [Table.wf_iff] at h ⊢
  exact ⟨(List.pairwise_cons.1 h.1).2, fun a ha => h.2 a (List.mem_cons_of_mem _ ha)⟩

/-- An entry read out of range is the reset value. -/
theorem Table.read_of_le {t : Table α} {d : α} {n i : Nat} (h : Table.wf t d n = true) (hi : n ≤ i) :
    Table.read t d i = d := by
  induction t with
  | nil => rfl
  | cons e t ih =>
    obtain ⟨j, v⟩ := e
    have hj : j < n := ((Table.wf_iff.1 h).2 (j, v) (by simp)).1
    rw [Table.read, if_neg (by omega)]
    exact ih (Table.wf_tail h)

/-- The entries a write leaves are the old ones and the written one. -/
theorem Table.mem_write {t : Table α} {d : α} {i : Nat} {v : α} {e : Nat × α}
    (h : e ∈ Table.write t d i v) : e ∈ t ∨ (e = (i, v) ∧ v ≠ d) := by
  induction t with
  | nil =>
    by_cases hv : v = d <;> simp_all [Table.write]
  | cons a t ih =>
    obtain ⟨j, u⟩ := a
    rw [Table.write] at h
    split at h
    · split at h
      · exact .inl h
      · rcases List.mem_cons.1 h with rfl | h
        · exact .inr ⟨rfl, ‹_›⟩
        · exact .inl h
    · split at h
      · split at h
        · exact .inl (List.mem_cons_of_mem _ h)
        · rcases List.mem_cons.1 h with rfl | h
          · exact .inr ⟨rfl, ‹_›⟩
          · exact .inl (List.mem_cons_of_mem _ h)
      · rcases List.mem_cons.1 h with rfl | h
        · exact .inl (by simp)
        · exact (ih h).imp_left (List.mem_cons_of_mem _)

/-- A write keeps the canonical form. -/
theorem Table.write_wf {t : Table α} {d : α} {n i : Nat} {v : α} (h : Table.wf t d n = true) (hi : i < n) :
    Table.wf (Table.write t d i v) d n = true := by
  rw [Table.wf_iff]
  refine ⟨?_, fun e he => ?_⟩
  · induction t with
    | nil => by_cases hv : v = d <;> simp [Table.write, hv]
    | cons a t ih =>
      obtain ⟨j, u⟩ := a
      have hp := List.pairwise_cons.1 (Table.wf_iff.1 h).1
      have ht := ih (Table.wf_tail h)
      rw [Table.write]
      split
      · split
        · exact (Table.wf_iff.1 h).1
        · refine List.pairwise_cons.2 ⟨fun b hb => ?_, (Table.wf_iff.1 h).1⟩
          rcases List.mem_cons.1 hb with rfl | hb
          · assumption
          · exact lt_trans ‹_› (hp.1 b hb)
      · split
        · rename_i heq
          subst heq
          split
          · exact hp.2
          · exact List.pairwise_cons.2 ⟨fun b hb => hp.1 b hb, hp.2⟩
        · refine List.pairwise_cons.2 ⟨fun b hb => ?_, ht⟩
          rcases Table.mem_write hb with hb | ⟨rfl, _⟩
          · exact hp.1 b hb
          · show j < i
            omega
  · rcases Table.mem_write he with he | ⟨rfl, hv⟩
    · exact (Table.wf_iff.1 h).2 e he
    · exact ⟨hi, hv⟩

/-- A read after a write: the written value at its index, every other entry as before. -/
theorem Table.read_write {t : Table α} {d : α} {n i : Nat} {v : α} (h : Table.wf t d n = true) (j : Nat) :
    Table.read (Table.write t d i v) d j = if j = i then v else Table.read t d j := by
  induction t with
  | nil =>
    by_cases hv : v = d
    · simp [Table.write, hv]
    · by_cases hj : j = i
      · simp [Table.write, hv, Table.read, hj]
      · simp [Table.write, hv, Table.read, hj, Ne.symm hj]
  | cons a t ih =>
    obtain ⟨k, u⟩ := a
    have hp := List.pairwise_cons.1 (Table.wf_iff.1 h).1
    have ih := ih (Table.wf_tail h)
    have below : ∀ m, m ≤ k → Table.read t d m = d := fun m hm =>
      Table.read_of_lt fun e he => lt_of_le_of_lt hm (hp.1 e he)
    rw [Table.write]
    split
    · split
      · by_cases hj : j = i
        · subst hj
          rw [if_pos rfl, Table.read, if_neg (by omega), below _ (by omega)]
          exact Eq.symm ‹_›
        · rw [if_neg hj]
      · by_cases hj : j = i
        · simp [Table.read, hj]
        · simp [Table.read, hj, Ne.symm hj]
    · split
      · rename_i heq
        subst heq
        split
        · by_cases hj : j = i
          · subst hj
            rw [if_pos rfl, below _ (le_refl _)]
            exact Eq.symm ‹_›
          · simp [Table.read, hj, Ne.symm hj]
        · by_cases hj : j = i
          · simp [Table.read, hj]
          · simp [Table.read, hj, Ne.symm hj]
      · by_cases hk : k = j
        · subst hk
          have : ¬ k = i := by omega
          simp [Table.read, this]
        · simp [Table.read, hk, ih]

/-- An entry of a canonical array is what its index reads. -/
theorem Table.read_of_mem {t : Table α} {d : α} {n : Nat} (h : Table.wf t d n = true) {e : Nat × α}
    (he : e ∈ t) : Table.read t d e.1 = e.2 := by
  induction t with
  | nil => cases he
  | cons a t ih =>
    obtain ⟨k, u⟩ := a
    have hp := List.pairwise_cons.1 (Table.wf_iff.1 h).1
    rcases List.mem_cons.1 he with rfl | he
    · simp [Table.read]
    · have : ¬ k = e.1 := Nat.ne_of_lt (hp.1 e he)
      rw [Table.read, if_neg this]
      exact ih (Table.wf_tail h) he

/-- Canonical arrays that read alike are equal data. -/
theorem Table.ext_of_read {t u : Table α} {d : α} {n : Nat} (ht : Table.wf t d n = true)
    (hu : Table.wf u d n = true) (h : ∀ i, Table.read t d i = Table.read u d i) : t = u := by
  induction t generalizing u with
  | nil =>
    cases u with
    | nil => rfl
    | cons b u =>
      exact absurd ((h b.1).trans (Table.read_of_mem hu (by simp))).symm
        ((Table.wf_iff.1 hu).2 b (by simp)).2
  | cons a t ih =>
    have ha := ((Table.wf_iff.1 ht).2 a (by simp)).2
    have hpt := List.pairwise_cons.1 (Table.wf_iff.1 ht).1
    have hra : Table.read (a :: t) d a.1 = a.2 := Table.read_of_mem ht (by simp)
    cases u with
    | nil => exact absurd (hra.symm.trans (h a.1)) ha
    | cons b u =>
      have hb := ((Table.wf_iff.1 hu).2 b (by simp)).2
      have hpu := List.pairwise_cons.1 (Table.wf_iff.1 hu).1
      have hrb : Table.read (b :: u) d b.1 = b.2 := Table.read_of_mem hu (by simp)
      have key : a.1 = b.1 := by
        rcases lt_trichotomy a.1 b.1 with hlt | heq | hlt
        · have : Table.read (b :: u) d a.1 = d := Table.read_of_lt fun e he => by
            rcases List.mem_cons.1 he with rfl | he
            · exact hlt
            · exact lt_trans hlt (hpu.1 e he)
          exact absurd (hra.symm.trans ((h a.1).trans this)) ha
        · exact heq
        · have : Table.read (a :: t) d b.1 = d := Table.read_of_lt fun e he => by
            rcases List.mem_cons.1 he with rfl | he
            · exact hlt
            · exact lt_trans hlt (hpt.1 e he)
          exact absurd (hrb.symm.trans ((h b.1).symm.trans this)) hb
      have hab : a = b := Prod.ext key (by rw [← hra, ← hrb, ← key, h a.1])
      subst hab
      congr 1
      refine ih (Table.wf_tail ht) (Table.wf_tail hu) fun i => ?_
      by_cases hi : a.1 = i
      · rw [Table.read_of_lt (fun e he => hi ▸ hpt.1 e he),
          Table.read_of_lt (fun e he => hi ▸ hpu.1 e he)]
      · have := h i
        rwa [Table.read, Table.read, if_neg hi, if_neg hi] at this

end Sys2Proof.Machine
end

