-- ==== Sys2Proof/Laws/Arrays.lean ====
section
/-! SUPPORT. The laws of the arrays the block holds: trained counters, trained rows, and the ranges of the indices. -/

namespace Sys2Proof.Machine

/-- Every counter of an array after one of them is trained (40_counter.md R106). -/
theorem read_trainCounter {a : Table Counter} {init : Counter} {n : Nat} (h : Table.wf a init n = true)
    (i : Nat) (o : BranchOutcome) (j : Nat) :
    Table.read (trainCounter a init i o) init j =
      if j = i then ctrNext (Table.read a init i) o else Table.read a init j :=
  Table.read_write h j

theorem trainCounter_wf {a : Table Counter} {init : Counter} {n : Nat} (h : Table.wf a init n = true)
    {i : Nat} (hi : i < n) (o : BranchOutcome) : Table.wf (trainCounter a init i o) init n = true :=
  Table.write_wf h hi

theorem Gshare.index_lt (g : Gshare) (pc : Word) : g.index pc < 2 ^ g.hbe := and_mask_lt _ _

theorem Tournament.globalIndex_lt (t : Tournament) : t.globalIndex < 2 ^ t.tg.toNat := histVal_lt _ _

theorem Tournament.slot_lt (t : Tournament) (pc : Word) : t.slot pc < 2 ^ t.pi.toNat := and_mask_lt _ _

/-- A trained row has one weight per history slot. -/
theorem Perceptron.trainedRow_length (p : Perceptron) (b : Nat) (o : BranchOutcome) :
    (p.trainedRow b o).length = p.h.toNat := by
  simp [Perceptron.trainedRow]

/-- A weight of a trained row (45_perceptron.md R205). -/
theorem Perceptron.trainedRow_getD (p : Perceptron) (b : Nat) (o : BranchOutcome) {i : Nat}
    (hi : i < p.h.toNat) :
    (p.trainedRow b o).getD i 0 = weightOf (p.weight b i + pm o * p.slotSign i) := by
  simp [Perceptron.trainedRow, hi]

end Sys2Proof.Machine
end

