-- ==== Sys2Proof/Laws/State.lean ====
section
/-! SUPPORT. One lemma per field per update of the state. -/

namespace Sys2Proof.Machine

variable (s : State) (p : BranchOutcome) (i : Instance) (f : FaultClass)

@[simp] theorem State.silent_inst : s.silent.inst = s.inst := rfl
@[simp] theorem State.silent_err : s.silent.err = s.err := rfl
@[simp] theorem State.silent_errCode : s.silent.errCode = s.errCode := rfl
@[simp] theorem State.silent_resp : s.silent.resp = none := rfl
@[simp] theorem State.silent_inbox : s.silent.inbox = s.inbox := rfl
@[simp] theorem State.silent_powerUps : s.silent.powerUps = s.powerUps := rfl

@[simp] theorem State.respond_inst : (s.respond p).inst = s.inst := rfl
@[simp] theorem State.respond_err : (s.respond p).err = s.err := rfl
@[simp] theorem State.respond_errCode : (s.respond p).errCode = s.errCode := rfl
@[simp] theorem State.respond_resp : (s.respond p).resp = some p := rfl
@[simp] theorem State.respond_inbox : (s.respond p).inbox = s.inbox := rfl
@[simp] theorem State.respond_powerUps : (s.respond p).powerUps = s.powerUps := rfl
@[simp] theorem State.silent_respond : s.silent.respond p = s.respond p := rfl

@[simp] theorem State.setInst_inst : (s.setInst i).inst = i := rfl
@[simp] theorem State.setInst_err : (s.setInst i).err = s.err := rfl
@[simp] theorem State.setInst_errCode : (s.setInst i).errCode = s.errCode := rfl
@[simp] theorem State.setInst_resp : (s.setInst i).resp = s.resp := rfl
@[simp] theorem State.setInst_inbox : (s.setInst i).inbox = s.inbox := rfl
@[simp] theorem State.setInst_powerUps : (s.setInst i).powerUps = s.powerUps := rfl

@[simp] theorem State.losePower_inst : s.losePower.inst = .unbuilt := rfl
@[simp] theorem State.losePower_resp : s.losePower.resp = none := rfl
@[simp] theorem State.losePower_inbox : s.losePower.inbox = s.inbox := rfl
@[simp] theorem State.losePower_powerUps : s.losePower.powerUps = s.powerUps + 1 := rfl

@[simp] theorem State.offer_inst (reqs : List Request) : (s.offer reqs).inst = s.inst := rfl
@[simp] theorem State.offer_err (reqs : List Request) : (s.offer reqs).err = s.err := rfl
@[simp] theorem State.offer_errCode (reqs : List Request) : (s.offer reqs).errCode = s.errCode := rfl
@[simp] theorem State.offer_resp (reqs : List Request) : (s.offer reqs).resp = s.resp := rfl
@[simp] theorem State.offer_inbox (reqs : List Request) : (s.offer reqs).inbox = reqs.map .request := rfl
@[simp] theorem State.offer_powerUps (reqs : List Request) : (s.offer reqs).powerUps = s.powerUps := rfl

/-- Fault entry leaves everything but the status pair (60_exceptions.md R235). -/
theorem State.raise_frame :
    (s.raise f).inst = s.inst ∧ (s.raise f).resp = s.resp ∧ (s.raise f).inbox = s.inbox ∧
      (s.raise f).powerUps = s.powerUps := by
  unfold State.raise; split <;> exact ⟨rfl, rfl, rfl, rfl⟩

@[simp] theorem State.raise_inst : (s.raise f).inst = s.inst := (s.raise_frame f).1
@[simp] theorem State.raise_resp : (s.raise f).resp = s.resp := (s.raise_frame f).2.1
@[simp] theorem State.raise_inbox : (s.raise f).inbox = s.inbox := (s.raise_frame f).2.2.1
@[simp] theorem State.raise_powerUps : (s.raise f).powerUps = s.powerUps := (s.raise_frame f).2.2.2

/-- A reset leaves what is pending and the model's counter, and no answer stands. -/
theorem State.applyReset_frame (c : Config) :
    (s.applyReset c).inbox = s.inbox ∧ (s.applyReset c).powerUps = s.powerUps ∧
      (s.applyReset c).resp = none := by
  unfold State.applyReset; split <;> simp

@[simp] theorem State.applyReset_inbox (c : Config) : (s.applyReset c).inbox = s.inbox :=
  (s.applyReset_frame c).1
@[simp] theorem State.applyReset_powerUps (c : Config) : (s.applyReset c).powerUps = s.powerUps :=
  (s.applyReset_frame c).2.1
@[simp] theorem State.applyReset_resp (c : Config) : (s.applyReset c).resp = none :=
  (s.applyReset_frame c).2.2

/-- A reset whose check passes (70_reset_and_hazards.md R250). -/
theorem State.applyReset_some {c : Config} {j : Instance} (h : buildInstance c = some j) :
    s.applyReset c = { s with inst := j, err := false, errCode := 0, resp := none } := by
  simp [State.applyReset, h]

/-- A reset whose check fails (10_state.md R40). -/
theorem State.applyReset_none {c : Config} (h : buildInstance c = none) :
    s.applyReset c = { s with inst := .invalid c, err := true, errCode := 1, resp := none } := by
  simp [State.applyReset, h, State.raise, FaultClass.code]

end Sys2Proof.Machine
end

