-- ==== Sys2Proof/Laws/Exec.lean ====
section
/-! SUPPORT. What taking a request can do, and one lemma per instruction: what it does in an instance that is
not faulted. -/

namespace Sys2Proof.Machine

/-- A request before the first reset has no step (70_reset_and_hazards.md R251). -/
theorem State.take_unbuilt {s : State} (h : s.inst = .unbuilt) (run : State → Result) :
    s.take run = .fault .requestBeforeReset := by
  simp [State.take, h]

/-- A request of a faulted block is refused (60_exceptions.md R236). -/
theorem State.take_faulted {s : State} (h : s.inst ≠ .unbuilt) (he : s.err = true) (run : State → Result) :
    s.take run = .next s.silent := by
  simp [State.take, h, he]

/-- Otherwise the request runs. -/
theorem State.take_ready {s : State} (h : s.inst ≠ .unbuilt) (he : s.err = false) (run : State → Result) :
    s.take run = run s.silent := by
  simp [State.take, h, he]

/-- All that taking a request can do, when it answers a next state. -/
theorem State.take_next {s t : State} {run : State → Result} (h : s.take run = .next t) :
    s.inst ≠ .unbuilt ∧ ((s.err = true ∧ t = s.silent) ∨ (s.err = false ∧ run s.silent = .next t)) := by
  unfold State.take at h
  split at h
  · cases h
  · refine ⟨‹_›, ?_⟩
    split at h
    · cases h; exact .inl ⟨‹_›, rfl⟩
    · exact .inr ⟨by simpa using ‹¬ s.err = true›, h⟩

theorem Instance.built_ne_unbuilt {i : Instance} (h : i.scheme.isSome = true) : i ≠ .unbuilt := by
  rintro rfl; cases h

variable {s : State} (he : s.err = false)

include he

theorem exec_nop (h : s.inst ≠ .unbuilt) : exec .nop s = .next s.silent :=
  State.take_ready h he fun s => .next s

theorem exec_reserved (h : s.inst ≠ .unbuilt) : exec .reserved s = .next (s.silent.raise .opFault) :=
  State.take_ready h he fun s => .next (s.raise .opFault)

theorem exec_staticPredict (h : s.inst = .static) (pc : Word) :
    exec (.staticPredict pc) s = .next (s.respond true) := by
  simp [exec, execStaticPredict, State.take_ready (by simp [h]) he, State.withStatic, h]

theorem exec_staticTrain (h : s.inst = .static) (pc : Word) (o : BranchOutcome) :
    exec (.staticTrain pc o) s = .next s.silent := by
  simp [exec, execStaticTrain, State.take_ready (by simp [h]) he, State.withStatic, h]

theorem exec_gsharePredict {g : Gshare} (h : s.inst = .gshare g) (pc : Word) :
    exec (.gsharePredict pc) s = .next (s.respond (g.predict pc)) := by
  simp [exec, execGsharePredict, State.take_ready (by simp [h]) he, State.withGshare, h]

theorem exec_gshareTrain {g : Gshare} (h : s.inst = .gshare g) (pc : Word) (o : BranchOutcome) :
    exec (.gshareTrain pc o) s = .next (s.silent.setInst (.gshare (g.train pc o))) := by
  simp [exec, execGshareTrain, State.take_ready (by simp [h]) he, State.withGshare, h]

theorem exec_tournamentPredict {t : Tournament} (h : s.inst = .tournament t) (pc : Word) :
    exec (.tournamentPredict pc) s = .next (s.respond (t.choice pc)) := by
  simp [exec, execTournamentPredict, State.take_ready (by simp [h]) he, State.withTournament, h]

theorem exec_tournamentTrain {t : Tournament} (h : s.inst = .tournament t) (pc : Word) (o : BranchOutcome) :
    exec (.tournamentTrain pc o) s = .next (s.silent.setInst (.tournament (t.train pc o))) := by
  simp [exec, execTournamentTrain, State.take_ready (by simp [h]) he, State.withTournament, h]

theorem exec_perceptronPredict {p : Perceptron} (h : s.inst = .perceptron p) (pc : Word) :
    exec (.perceptronPredict pc) s = .next (s.respond (p.pred pc)) := by
  simp [exec, execPerceptronPredict, State.take_ready (by simp [h]) he, State.withPerceptron, h]

theorem exec_perceptronTrain {p : Perceptron} (h : s.inst = .perceptron p) (pc : Word) (o : BranchOutcome) :
    exec (.perceptronTrain pc o) s = .next (s.silent.setInst (.perceptron (p.train pc o))) := by
  simp [exec, execPerceptronTrain, State.take_ready (by simp [h]) he, State.withPerceptron, h]

omit he

/-- All that a request can do in a block that is not faulted. -/
inductive Effect (s : State) : Instr → State → Prop where
  | nop : Effect s .nop s.silent
  | reserved : Effect s .reserved (s.silent.raise .opFault)
  | staticPredict (h : s.inst = .static) (pc : Word) : Effect s (.staticPredict pc) (s.respond true)
  | staticTrain (h : s.inst = .static) (pc : Word) (o : BranchOutcome) : Effect s (.staticTrain pc o) s.silent
  | gsharePredict {g : Gshare} (h : s.inst = .gshare g) (pc : Word) :
      Effect s (.gsharePredict pc) (s.respond (g.predict pc))
  | gshareTrain {g : Gshare} (h : s.inst = .gshare g) (pc : Word) (o : BranchOutcome) :
      Effect s (.gshareTrain pc o) (s.silent.setInst (.gshare (g.train pc o)))
  | tournamentPredict {t : Tournament} (h : s.inst = .tournament t) (pc : Word) :
      Effect s (.tournamentPredict pc) (s.respond (t.choice pc))
  | tournamentTrain {t : Tournament} (h : s.inst = .tournament t) (pc : Word) (o : BranchOutcome) :
      Effect s (.tournamentTrain pc o) (s.silent.setInst (.tournament (t.train pc o)))
  | perceptronPredict {p : Perceptron} (h : s.inst = .perceptron p) (pc : Word) :
      Effect s (.perceptronPredict pc) (s.respond (p.pred pc))
  | perceptronTrain {p : Perceptron} (h : s.inst = .perceptron p) (pc : Word) (o : BranchOutcome) :
      Effect s (.perceptronTrain pc o) (s.silent.setInst (.perceptron (p.train pc o)))

theorem State.withStatic_next {run : Result} {t : State} (h : s.withStatic run = .next t) :
    s.inst = .static ∧ run = .next t := by
  unfold State.withStatic at h
  split at h
  · exact ⟨‹_›, h⟩
  · cases h

theorem State.withGshare_next {run : Gshare → Result} {t : State} (h : s.withGshare run = .next t) :
    ∃ g, s.inst = .gshare g ∧ run g = .next t := by
  unfold State.withGshare at h
  split at h
  · exact ⟨_, ‹_›, h⟩
  · cases h

theorem State.withTournament_next {run : Tournament → Result} {t : State}
    (h : s.withTournament run = .next t) : ∃ g, s.inst = .tournament g ∧ run g = .next t := by
  unfold State.withTournament at h
  split at h
  · exact ⟨_, ‹_›, h⟩
  · cases h

theorem State.withPerceptron_next {run : Perceptron → Result} {t : State}
    (h : s.withPerceptron run = .next t) : ∃ g, s.inst = .perceptron g ∧ run g = .next t := by
  unfold State.withPerceptron at h
  split at h
  · exact ⟨_, ‹_›, h⟩
  · cases h

/-- All that `exec` can do, when it answers a next state. -/
theorem exec_next {i : Instr} {t : State} (h : exec i s = .next t) :
    s.inst ≠ .unbuilt ∧ ((s.err = true ∧ t = s.silent) ∨ (s.err = false ∧ Effect s i t)) := by
  have run : ∀ (f : State → Result), (f s.silent = .next t → Effect s i t) → s.take f = .next t →
      s.inst ≠ .unbuilt ∧ ((s.err = true ∧ t = s.silent) ∨ (s.err = false ∧ Effect s i t)) :=
    fun _ hf h => (State.take_next h).imp_right (Or.imp_right (And.imp_right hf))
  cases i with
  | nop => exact run (fun s => .next s) (fun h => by cases h; exact .nop) h
  | reserved => exact run (fun s => .next (s.raise .opFault)) (fun h => by cases h; exact .reserved) h
  | staticPredict pc =>
    refine run (fun s => s.withStatic (.next (s.respond true))) (fun h => ?_) h
    obtain ⟨hi, h⟩ := State.withStatic_next h
    cases h
    exact Effect.staticPredict (s := s) hi pc
  | staticTrain pc o =>
    refine run (fun s => s.withStatic (.next s)) (fun h => ?_) h
    obtain ⟨hi, h⟩ := State.withStatic_next h
    cases h
    exact Effect.staticTrain (s := s) hi pc o
  | gsharePredict pc =>
    refine run (fun s => s.withGshare <| fun g => .next (s.respond (g.predict pc))) (fun h => ?_) h
    obtain ⟨_, hi, h⟩ := State.withGshare_next h
    cases h
    exact Effect.gsharePredict (s := s) hi pc
  | gshareTrain pc o =>
    refine run (fun s => s.withGshare <| fun g => .next (s.setInst (.gshare (g.train pc o)))) (fun h => ?_) h
    obtain ⟨_, hi, h⟩ := State.withGshare_next h
    cases h
    exact Effect.gshareTrain (s := s) hi pc o
  | tournamentPredict pc =>
    refine run (fun s => s.withTournament <| fun g => .next (s.respond (g.choice pc))) (fun h => ?_) h
    obtain ⟨_, hi, h⟩ := State.withTournament_next h
    cases h
    exact Effect.tournamentPredict (s := s) hi pc
  | tournamentTrain pc o =>
    refine run (fun s => s.withTournament <| fun g => .next (s.setInst (.tournament (g.train pc o)))) (fun h => ?_) h
    obtain ⟨_, hi, h⟩ := State.withTournament_next h
    cases h
    exact Effect.tournamentTrain (s := s) hi pc o
  | perceptronPredict pc =>
    refine run (fun s => s.withPerceptron <| fun g => .next (s.respond (g.pred pc))) (fun h => ?_) h
    obtain ⟨_, hi, h⟩ := State.withPerceptron_next h
    cases h
    exact Effect.perceptronPredict (s := s) hi pc
  | perceptronTrain pc o =>
    refine run (fun s => s.withPerceptron <| fun g => .next (s.setInst (.perceptron (g.train pc o)))) (fun h => ?_) h
    obtain ⟨_, hi, h⟩ := State.withPerceptron_next h
    cases h
    exact Effect.perceptronTrain (s := s) hi pc o

end Sys2Proof.Machine
end

