-- ==== Sys2Proof/Laws/PerInstr.lean ====
section
/-! SUPPORT. The family RowMatch: the encoding of a request selects its row of the opcode table, in an instance
of the row's scheme (30_encoding.md R70, R74). -/

/-- The encoded word selects the request's row, in every scheme the request belongs to. -/
def Sys2Proof.Laws.RowMatch.Statement (i : Sys2Proof.Instr) : Prop :=
  ∀ sch : Sys2Proof.Scheme, i.wellFormed sch = true → i.row.selects sch (Sys2Proof.encode i) = true

namespace Sys2Proof

/-- The mask of every row of the table leaves the operation code of a request word. -/
theorem requestWord_and_mask (op : BitVec 2) (o : BranchOutcome) (pc : Word) :
    requestWord op o pc &&& 0x600000000 = requestWord op false 0 := by
  have h : (0x600000000 : Request) = (3#2 ++ 0#1 ++ 0#32) := by decide
  have h3 : op &&& 3#2 = op := BitVec.and_allOnes
  have outer := @BitVec.and_append 3 32 (op ++ BitVec.ofBool o) (3#2 ++ 0#1) pc (0#32)
  have inner := @BitVec.and_append 2 1 op (3#2) (BitVec.ofBool o) (0#1)
  rw [h, requestWord, requestWord, outer, inner, h3, BitVec.and_zero, BitVec.and_zero]
  rfl

/-- A row with the table's mask is selected by every word of its operation code, in its scheme. -/
theorem Row.selects_requestWord {r : Row} {op : BitVec 2} {sch : Scheme} (o : BranchOutcome) (pc : Word)
    (hm : r.mask = 0x600000000) (hp : r.pattern = requestWord op false 0)
    (hs : r.scheme = none ∨ r.scheme = some sch) : r.selects sch (requestWord op o pc) = true := by
  have hw : (requestWord op o pc &&& r.mask == r.pattern) = true := by
    rw [hm, hp, requestWord_and_mask, beq_self_eq_true]
  rcases hs with hs | hs <;> simp [Row.selects, hw, hs]

theorem requestWord_one : (0x200000000 : Request) = requestWord 1 false 0 := by decide

theorem requestWord_two : (0x400000000 : Request) = requestWord 2 false 0 := by decide

/-- A request of one scheme is well formed in that scheme alone. -/
theorem Instr.scheme_of_wellFormed {i : Instr} {sch : Scheme} (h : i.wellFormed sch = true) :
    i.scheme = none ∨ i.scheme = some sch := by
  simpa [Instr.wellFormed] using h

namespace Laws.RowMatch

theorem nop : Statement .nop := fun _ _ =>
  Row.selects_requestWord _ _ rfl (by decide) (.inl rfl)

theorem staticPredict (pc : Word) : Statement (.staticPredict pc) := fun _ h =>
  Row.selects_requestWord _ _ rfl requestWord_one (Instr.scheme_of_wellFormed h)

theorem staticTrain (pc : Word) (o : BranchOutcome) : Statement (.staticTrain pc o) := fun _ h =>
  Row.selects_requestWord _ _ rfl requestWord_two (Instr.scheme_of_wellFormed h)

theorem gsharePredict (pc : Word) : Statement (.gsharePredict pc) := fun _ h =>
  Row.selects_requestWord _ _ rfl requestWord_one (Instr.scheme_of_wellFormed h)

theorem gshareTrain (pc : Word) (o : BranchOutcome) : Statement (.gshareTrain pc o) := fun _ h =>
  Row.selects_requestWord _ _ rfl requestWord_two (Instr.scheme_of_wellFormed h)

theorem tournamentPredict (pc : Word) : Statement (.tournamentPredict pc) := fun _ h =>
  Row.selects_requestWord _ _ rfl requestWord_one (Instr.scheme_of_wellFormed h)

theorem tournamentTrain (pc : Word) (o : BranchOutcome) : Statement (.tournamentTrain pc o) := fun _ h =>
  Row.selects_requestWord _ _ rfl requestWord_two (Instr.scheme_of_wellFormed h)

theorem perceptronPredict (pc : Word) : Statement (.perceptronPredict pc) := fun _ h =>
  Row.selects_requestWord _ _ rfl requestWord_one (Instr.scheme_of_wellFormed h)

theorem perceptronTrain (pc : Word) (o : BranchOutcome) : Statement (.perceptronTrain pc o) := fun _ h =>
  Row.selects_requestWord _ _ rfl requestWord_two (Instr.scheme_of_wellFormed h)

theorem reserved : Statement .reserved := fun _ _ =>
  Row.selects_requestWord _ _ rfl (by decide) (.inl rfl)

end Laws.RowMatch

end Sys2Proof
end

