-- ==== Sys2Proof/Laws/Sound.lean ====
section
/-! SUPPORT. A training keeps an instance sound, and a reset builds a sound one. -/

namespace Sys2Proof.Machine

theorem Gshare.train_sound {g : Gshare} (h : g.Sound) (pc : Word) (o : BranchOutcome) : (g.train pc o).Sound :=
  ⟨h.1, histShift_lt _ _ _, trainCounter_wf h.2.2 (g.index_lt pc) o⟩

theorem Tournament.train_sound {t : Tournament} (h : t.Sound) (pc : Word) (o : BranchOutcome) :
    (t.train pc o).Sound := by
  obtain ⟨hw, -, hg, ⟨hl, hp⟩, hc⟩ := h
  refine ⟨hw, histShift_lt _ _ _, trainCounter_wf hg t.globalIndex_lt o,
    ⟨Table.write_wf hl (t.slot_lt pc), fun i => ?_⟩, trainCounter_wf hc (hp _) o⟩
  show Table.read (Table.write t.lht 0 (t.slot pc) _) 0 i < _
  rw [Table.read_write hl]
  split
  · exact histShift_lt _ _ _
  · exact hp i

theorem Perceptron.train_sound {p : Perceptron} (h : p.Sound) (pc : Word) (o : BranchOutcome) :
    (p.train pc o).Sound := by
  obtain ⟨hn, -, hw, hr⟩ := h
  refine ⟨hn, histShift_lt _ _ _, ?_, fun b => ?_⟩
  · show Table.wf (if p.trainCond pc o = true then _ else _) p.zeroRow p.n.toNat = true
    split
    · exact Table.write_wf hw (Nat.mod_lt _ hn.2)
    · exact hw
  · show (Table.read (if p.trainCond pc o = true then _ else _) p.zeroRow b).length = p.h.toNat
    split
    · rw [Table.read_write hw]
      split
      · exact p.trainedRow_length _ _
      · exact hr b
    · exact hr b

/-- The values of 10_state.md R39 are sound. -/
theorem buildInstance_sound {c : Config} {i : Instance} (h : buildInstance c = some i) : i.Sound := by
  unfold buildInstance at h
  split at h
  · cases h
  · cases h; trivial
  · simp only [buildGshare, Option.bind_eq_bind, Option.bind_eq_some_iff] at h
    obtain ⟨hb, -, h⟩ := h
    split at h
    · cases h
      exact ⟨by rcases ‹c.initGs = .snt ∨ c.initGs = .wnt› with hi | hi <;> simp [hi, ctrPred],
        Nat.two_pow_pos _, Table.wf_nil _ _⟩
    · cases h
  · simp only [buildTournament, Option.bind_eq_bind, Option.bind_eq_some_iff] at h
    obtain ⟨tg, -, tl, -, pi, -, h⟩ := h
    split at h
    · cases h
      exact ⟨‹_›, Nat.two_pow_pos _, Table.wf_nil _ _, ⟨Table.wf_nil _ _, fun _ => Nat.two_pow_pos _⟩,
        Table.wf_nil _ _⟩
    · cases h
  · simp only [buildPerceptron, Option.bind_eq_bind, Option.bind_eq_some_iff] at h
    obtain ⟨hh, -, n, -, theta, -, h⟩ := h
    split at h
    · cases h
      exact ⟨‹_›, Nat.two_pow_pos _, Table.wf_nil _ _, fun _ => List.length_replicate⟩
    · cases h

end Sys2Proof.Machine
end

