-- ==== Sys2Proof/Laws/Step.lean ====
section
/-! SUPPORT. What one step does with each kind of event. -/

namespace Sys2Proof.Machine

variable {s : State} {rest : List PortEvent}

theorem step_nil (h : s.inbox = []) : step s = .next s.silent := by
  simp [step, deliver, h]

theorem step_request {req : Request} (h : s.inbox = .request req :: rest) :
    step s = deliverRequest exec req { s with inbox := rest } := by
  simp [step, deliver, h]

theorem step_reset_event {c : Config} {q : Option Request} (h : s.inbox = .reset c q :: rest) :
    step s = .next (State.applyReset { s with inbox := rest } c) := by
  simp [step, deliver, h]

theorem step_powerLoss (h : s.inbox = .powerLoss :: rest) :
    step s = .next (State.losePower { s with inbox := rest }) := by
  simp [step, deliver, h]

/-- The decoder and the decoded request, by the operation code (30_encoding.md R71, R74). -/
theorem decode_nop {sch : Scheme} {req : Request} (h : opField req = 0) : decode sch req = .nop := by
  simp [decode, h]

theorem decode_predict {sch : Scheme} {req : Request} (h : opField req = 1) :
    decode sch req = decodePredict sch (pcField req) := by
  simp [decode, h]

theorem decode_train {sch : Scheme} {req : Request} (h : opField req = 2) :
    decode sch req = decodeTrain sch (pcField req) (oField req) := by
  simp [decode, h]

theorem decode_reserved {sch : Scheme} {req : Request} (h : opField req = 3) : decode sch req = .reserved := by
  simp [decode, h]

/-- Every word has one of the four operation codes (30_encoding.md R76). -/
theorem opField_cases (req : Request) :
    opField req = 0 ∨ opField req = 1 ∨ opField req = 2 ∨ opField req = 3 := by
  have h : ∀ b : BitVec 2, b = 0 ∨ b = 1 ∨ b = 2 ∨ b = 3 := by decide
  exact h _

/-- Before a reset there is no instance, after a failed one no predictor, else there is one of a scheme. -/
theorem Instance.cases_scheme (i : Instance) :
    i = .unbuilt ∨ (∃ c, i = .invalid c) ∨ ∃ sch, i.scheme = some sch := by
  cases i <;> simp [Instance.scheme]

theorem step_request_unbuilt {req : Request} (h : s.inbox = .request req :: rest) (hi : s.inst = .unbuilt) :
    step s = .fault .requestBeforeReset := by
  rw [step_request h, deliverRequest]; simp only [hi]

theorem step_request_invalid {req : Request} {c : Config} (h : s.inbox = .request req :: rest)
    (hi : s.inst = .invalid c) : step s = .next { s with inbox := rest, resp := none } := by
  rw [step_request h, deliverRequest]; simp only [hi]; rfl

theorem step_request_scheme {req : Request} {sch : Scheme} (h : s.inbox = .request req :: rest)
    (hi : s.inst.scheme = some sch) : step s = exec (decode sch req) { s with inbox := rest } := by
  rw [step_request h, deliverRequest]
  revert hi
  cases hs : s.inst <;> simp only [Instance.scheme] <;> intro hi <;> cases hi <;> rfl

/-- All that a step can do, when it answers a next state. -/
theorem step_next {t : State} (h : step s = .next t) :
    (s.inbox = [] ∧ t = s.silent) ∨
    (∃ c q rest, s.inbox = .reset c q :: rest ∧ t = State.applyReset { s with inbox := rest } c) ∨
    (∃ rest, s.inbox = .powerLoss :: rest ∧ t = State.losePower { s with inbox := rest }) ∨
    (∃ req rest, s.inbox = .request req :: rest ∧
      ((∃ c, s.inst = .invalid c ∧ t = { s with inbox := rest, resp := none }) ∨
        ∃ sch, s.inst.scheme = some sch ∧ exec (decode sch req) { s with inbox := rest } = .next t)) := by
  rcases hb : s.inbox with _ | ⟨req | ⟨c, q⟩ | _, rest⟩
  · rw [step_nil hb] at h; cases h; exact .inl ⟨rfl, rfl⟩
  · refine .inr (.inr (.inr ⟨req, rest, rfl, ?_⟩))
    rcases s.inst.cases_scheme with hi | ⟨c, hi⟩ | ⟨sch, hi⟩
    · rw [step_request_unbuilt hb hi] at h; cases h
    · rw [step_request_invalid hb hi] at h; cases h; exact .inl ⟨c, hi, rfl⟩
    · exact .inr ⟨sch, hi, step_request_scheme hb hi ▸ h⟩
  · rw [step_reset_event hb] at h; cases h; exact .inr (.inl ⟨c, q, rest, rfl, rfl⟩)
  · rw [step_powerLoss hb] at h; cases h; exact .inr (.inr (.inl ⟨rest, rfl, rfl⟩))

end Sys2Proof.Machine
end

