-- ==== Sys2Proof/Machine/Asm.lean ====
section
/-! DEFINITION. The textual syntax (30_encoding.md R79, R80): lines, their words, and the reading of a line.
A line is read as the list of its characters; spaces separate its parts. DESIGN CHOICE (log 18), safe. -/

namespace Sys2Proof.Machine

/-- A line of a program: the three operations (R79) and the pseudo-instruction RECORD (R80). -/
inductive AsmLine where
  | nop
  | predict (pc : Word)
  | train (pc : Word) (o : BranchOutcome)
  | record (pc : Word) (o : BranchOutcome)
deriving DecidableEq, Repr

/-- The words a line assembles to (R79); RECORD is PREDICT, then TRAIN (R80). -/
def assembleLine : AsmLine → List Request
  | .nop => [requestWord 0 false 0]
  | .predict pc => [requestWord 1 false pc]
  | .train pc o => [requestWord 2 o pc]
  | .record pc o => [requestWord 1 false pc, requestWord 2 o pc]

/-- A program is a list of lines executed in order (R79). -/
def assemble (ls : List AsmLine) : List Request := ls.flatMap assembleLine

/-- The value of a hexadecimal digit. -/
def hexDigit (c : Char) : Option Nat :=
  if 48 ≤ c.toNat ∧ c.toNat ≤ 57 then some (c.toNat - 48)
  else if 97 ≤ c.toNat ∧ c.toNat ≤ 102 then some (c.toNat - 87)
  else if 65 ≤ c.toNat ∧ c.toNat ≤ 70 then some (c.toNat - 55)
  else none

/-- The value of a string of hexadecimal digits, most significant first, on from `acc`. -/
def hexValue (acc : Nat) : List Char → Option Nat
  | [] => some acc
  | c :: cs => (hexDigit c).bind fun d => hexValue (16 * acc + d) cs

/-- `<pc>`: `0x`, then 1 to 8 hexadecimal digits (R79). -/
def readPc (cs : List Char) : Option Word :=
  match cs with
  | '0' :: 'x' :: ds =>
      if 1 ≤ ds.length ∧ ds.length ≤ 8 then (hexValue 0 ds).map (BitVec.ofNat 32) else none
  | _ => none

/-- `<o>`: `1` or `T`, `0` or `N` (R79). -/
def readOutcome (cs : List Char) : Option BranchOutcome :=
  if cs = ['1'] ∨ cs = ['T'] then some true
  else if cs = ['0'] ∨ cs = ['N'] then some false
  else none

/-- The parts of a line between spaces, `part` being the reversed part read so far. -/
def partsOf (part : List Char) : List Char → List (List Char)
  | [] => if part = [] then [] else [part.reverse]
  | c :: cs => if c = ' ' then (if part = [] then partsOf [] cs else part.reverse :: partsOf [] cs)
      else partsOf (c :: part) cs

/-- `<pc>,`: an address and the comma after it. -/
def readPcComma (cs : List Char) : Option Word :=
  if cs.getLast? = some ',' then readPc cs.dropLast else none

/-- A line of text (R79, R80). -/
def readLine (cs : List Char) : Option AsmLine :=
  match partsOf [] cs with
  | [m] => if m = ['N', 'O', 'P'] then some .nop else none
  | [m, a] => if m = ['P', 'R', 'E', 'D', 'I', 'C', 'T'] then (readPc a).map .predict else none
  | [m, a, b] =>
      if m = ['T', 'R', 'A', 'I', 'N'] then do some (.train (← readPcComma a) (← readOutcome b))
      else if m = ['R', 'E', 'C', 'O', 'R', 'D'] then do some (.record (← readPc a) (← readOutcome b))
      else none
  | _ => none

/-- A hexadecimal digit as a character. -/
def digitChar (n : Nat) : Char := if n < 10 then Char.ofNat (48 + n) else Char.ofNat (55 + n)

/-- The word as 9 hexadecimal digits, zero-extended to 36 bits (R79). -/
def wordDigits (req : Request) : List Char :=
  (List.range 9).map fun i => digitChar (req.toNat / 16 ^ (8 - i) % 16)

end Sys2Proof.Machine
end

