-- ==== Sys2Proof/Tests/Slice0.lean ====
section
/-! SUPPORT. Tests of the model and witnesses of the statements. Expected values are those of
95_test_vectors.md (cited by its vector names), or worked out by hand from the rule named. -/

namespace Sys2Proof.Tests

open Sys2Proof Sys2Proof.Machine

/-! ### Well-formedness: each check of 60_exceptions.md R232 refuses an ill-formed term -/

theorem wf_missing_scheme : Config.wellFormed { scheme := none, hb := some 2 } = false := by decide
theorem wf_gshare_missing_hb : Config.wellFormed { scheme := some .gshare } = false := by decide
theorem wf_gshare_init_taken_side :
    Config.wellFormed { scheme := some .gshare, hb := some 2, initGs := .wt } = false ∧
    Config.wellFormed { scheme := some .gshare, hb := some 2, initGs := .st } = false := by decide
theorem wf_tournament_missing_width :
    Config.wellFormed { scheme := some .tournament, tl := some 2, pi := some 2 } = false ∧
    Config.wellFormed { scheme := some .tournament, tg := some 2, pi := some 2 } = false ∧
    Config.wellFormed { scheme := some .tournament, tg := some 2, tl := some 2 } = false := by decide
theorem wf_tournament_width_above_32 :
    Config.wellFormed { scheme := some .tournament, tg := some 33, tl := some 32, pi := some 32 } = false ∧
    Config.wellFormed { scheme := some .tournament, tg := some 32, tl := some 33, pi := some 32 } = false ∧
    Config.wellFormed { scheme := some .tournament, tg := some 32, tl := some 32, pi := some 33 } = false := by
  decide
theorem wf_perceptron_missing :
    Config.wellFormed { scheme := some .perceptron, n := some 1, theta := some 0 } = false ∧
    Config.wellFormed { scheme := some .perceptron, h := some 1, theta := some 0 } = false ∧
    Config.wellFormed { scheme := some .perceptron, h := some 1, n := some 1 } = false := by decide
theorem wf_perceptron_zero :
    Config.wellFormed { scheme := some .perceptron, h := some 0, n := some 1, theta := some 0 } = false ∧
    Config.wellFormed { scheme := some .perceptron, h := some 1, n := some 0, theta := some 0 } = false := by decide

/-- The widest and narrowest legal configurations are accepted; HB = 1000 is legal (V-FLT). -/
theorem wf_legal :
    Config.wellFormed { scheme := some .static } = true ∧
    Config.wellFormed { scheme := some .gshare, hb := some 1000, initGs := .snt } = true ∧
    Config.wellFormed { scheme := some .tournament, tg := some 32, tl := some 0, pi := some 32 } = true ∧
    Config.wellFormed { scheme := some .perceptron, h := some 1, n := some 1, theta := some 0 } = true := by decide

theorem wf_instr_of_another_scheme :
    Instr.wellFormed .static (.gsharePredict 0) = false ∧ Instr.wellFormed .perceptron (.staticTrain 0 true) = false ∧
    Instr.wellFormed .gshare (.tournamentPredict 0) = false ∧
    Instr.wellFormed .tournament (.perceptronTrain 0 false) = false := by decide

/-! ### Decoding: words written out bit by bit, `op`, `o`, `pc` (30_encoding.md R70; V-ENC) -/

theorem decode_nop_words : decode .static 0b000_0000_0000_0000_0000_0000_0000_0000_0000 = .nop ∧
    decode .gshare 0b001_0010_0011_0100_0101_0110_0111_1000_1001 = .nop := by decide
theorem decode_static_words :
    decode .static 0b010_0000_0000_0000_0000_0001_0000_0000_0000 = .staticPredict 0x1000 ∧
    decode .static 0b101_0000_0000_0000_0000_0001_0000_0000_0000 = .staticTrain 0x1000 true := by decide
theorem decode_gshare_words :
    decode .gshare 0b011_0000_0000_0000_0000_0001_0000_0000_0000 = .gsharePredict 0x1000 ∧
    decode .gshare 0b100_1101_1110_1010_1101_1011_1110_1110_1111 = .gshareTrain 0xDEADBEEF false := by decide
theorem decode_tournament_words :
    decode .tournament 0b010_0000_0000_0000_0000_0000_0000_0001_0000 = .tournamentPredict 0x10 ∧
    decode .tournament 0b101_1101_1110_1010_1101_1011_1110_1110_1111 = .tournamentTrain 0xDEADBEEF true := by decide
theorem decode_perceptron_words :
    decode .perceptron 0b011_1111_1111_1111_1111_1111_1111_1111_1111 = .perceptronPredict 0xFFFFFFFF ∧
    decode .perceptron 0b100_0000_0000_0000_0000_0000_0000_0000_0011 = .perceptronTrain 3 false := by decide
theorem decode_reserved_words : decode .static 0b110_0000_0000_0000_0000_0000_0000_0000_0000 = .reserved ∧
    decode .perceptron 0b111_1111_1111_1111_1111_1111_1111_1111_1111 = .reserved := by decide
theorem decode_number_too_wide : decodeNumber .gshare (2 ^ 35) = .error .wordTooWide ∧
    decodeTableWord 40 (2 ^ 35) = none ∧ decodeTableWord 40 0x500000004 = some (.gshareTrain 4 true) :=
  ⟨rfl, rfl, rfl⟩
theorem scheme_codes : Scheme.bits .static = 0 ∧ Scheme.bits .gshare = 1 ∧ Scheme.bits .tournament = 2 ∧
    Scheme.bits .perceptron = 3 ∧ ∀ b, Scheme.bits (Scheme.ofBits b) = b := by decide

/-- SRC-9 and 30_encoding.md R79, R80: the text of a line and its words. -/
theorem asm_record : (readLine "RECORD 0x1000 1".toList).map assembleLine = some [0x200001000, 0x500001000] := by
  decide
theorem asm_lines : readLine "NOP".toList = some .nop ∧ readLine "PREDICT 0xdeadBEEF".toList = some (.predict 0xDEADBEEF) ∧
    readLine "TRAIN 0x10, N".toList = some (.train 0x10 false) ∧ readLine "TRAIN 0x10, T".toList = some (.train 0x10 true) ∧
    readLine "PREDICT 0x123456789".toList = none ∧ readLine "PREDICT 10".toList = none := by decide
theorem asm_digits : wordDigits 0x500001000 = "500001000".toList := by decide

/-! ### The instances the tests use -/

/-- V-GS: a gshare with `HB = 2`, as reset leaves it. -/
def gs : Gshare := { hb := 2, initGs := .wnt, ghr := 0, pht := [] }

/-- V-TN: one entry in each table. -/
def tn (m g l : Counter) : Tournament :=
  { tg := 0, tl := 0, pi := 0, initTg := .wnt, initTl := .wnt, initMeta := .wnt, ghr := 0
    gct := Table.write [] .wnt 0 g, lht := [], lct := Table.write [] .wnt 0 l, metaCtr := m }

/-- V-PC: one bucket. -/
def pc1 (theta : Word) (phr : Nat) (row : List Weight) : Perceptron :=
  { h := BitVec.ofNat 32 row.length, n := 1, theta := theta, percHash := [], phr := phr
    w := Table.write [] (List.replicate row.length 0) 0 row }

/-- A block that is not faulted, with nothing pending. -/
def block (i : Instance) : State := { inst := i, err := false, errCode := 0, resp := none, inbox := [], powerUps := 0 }

/-- A block faulted by a reserved request, with one request more pending. -/
def faulted (i : Instance) : State := { block i with err := true, errCode := 2, inbox := [.request 0x200000000] }

/-- What an outcome shows of a next state. -/
def see {α : Type} (f : State → α) (r : Result) : Option α :=
  match r with
  | .next t => some (f t)
  | .fault _ => none
  | .refused _ => none

/-! ### The parts of the instructions -/

theorem test_histShift : histShift 0 true 0 = 0 ∧ histShift 1 true 2 = 3 ∧ histShift 3 false 2 = 2 ∧
    histShift 0xFFFFFFFF false 32 = 0xFFFFFFFE ∧ histShift 0x80000000 true 32 = 1 ∧ histVal 0b1011 2 = 0b11 := by decide
theorem test_gshare_index :
    Gshare.index { gs with hb := 0 } 0xFFFFFFFF = 0 ∧ Gshare.index { gs with hb := 3, ghr := 0b110 } 0xF = 1 ∧
    Gshare.index { gs with hb := 4, ghr := 0b1010 } 0x1234 = 0xE ∧
    Gshare.index { gs with hb := 32, ghr := 0xFF } 0xDEADBEEF = 0xDEADBE10 ∧
    Gshare.index { gs with hb := 40, ghr := 0xFF } 0xDEADBEEF = 0xDEADBE10 := by decide
theorem test_tournament_slot : Tournament.slot { tn .wnt .wnt .wnt with pi := 2 } 0x5 = 1 ∧
    Tournament.slot { tn .wnt .wnt .wnt with pi := 2 } 0xFFFFFFFD = 1 := by decide
theorem test_bucket : Perceptron.bucket { pc1 0 0 [0] with n := 3 } 0x10 = 1 ∧
    Perceptron.bucket { pc1 0 0 [0] with n := 4 } 0xFFFFFFFF = 3 ∧
    Perceptron.bucket { pc1 0 0 [0] with n := 4, percHash := [(7, 2), (7, 1)] } 7 = 2 := by decide
theorem test_score_wraps : Perceptron.score (pc1 0 0b11 [0x40000000, 0x40000000]) 0 = -2 ^ 31 ∧
    Perceptron.score (pc1 0 0 [0x80000000]) 0 = -2 ^ 31 ∧ Perceptron.score (pc1 0 0b101 [2, -1, 3]) 0 = 6 := by decide

/-! ### One step each -/

theorem test_nop : see State.resp (exec .nop (block (.gshare gs))) = some none := by decide
theorem test_reserved : see (fun t => (t.err, t.errCode, t.inst)) (exec .reserved (block (.gshare gs))) =
    some (true, 2, .gshare gs) := by decide
theorem test_reserved_while_faulted :
    see (fun t => (t.err, t.errCode)) (exec .reserved { faulted .static with errCode := 1 }) = some (true, 1) := by decide
theorem test_static_predict : see State.resp (exec (.staticPredict 0x1000) (block .static)) = some (some true) := by decide
theorem test_static_train : see State.inst (exec (.staticTrain 0x1000 false) (block .static)) = some .static := by decide
theorem test_gshare_train : see State.inst (exec (.gshareTrain 4 true) (block (.gshare gs))) =
    some (.gshare { gs with ghr := 1, pht := [(0, .wt)] }) := by decide
theorem test_gshare_train_last_record_of_P2 :
    see State.inst (exec (.gshareTrain 4 false)
      (block (.gshare { gs with ghr := 2, pht := [(0, .wt), (1, .wt), (3, .snt)] }))) =
    some (.gshare { gs with ghr := 0, pht := [(0, .wt), (1, .wt), (2, .snt), (3, .snt)] }) := by decide
theorem test_gshare_predict :
    see State.resp (exec (.gsharePredict 5) (block (.gshare { gs with ghr := 1, pht := [(0, .wt)] }))) =
    some (some true) := by decide
theorem test_gshare_predict_snt :
    see State.resp (exec (.gsharePredict 5)
      (block (.gshare { gs with initGs := .snt, ghr := 1, pht := [(0, .wnt)] }))) = some (some false) := by decide
theorem test_tournament_predict_global :
    see State.resp (exec (.tournamentPredict 9) (block (.tournament (tn .wnt .wt .wnt)))) = some (some true) := by decide
theorem test_tournament_predict_local :
    see State.resp (exec (.tournamentPredict 9) (block (.tournament (tn .st .wnt .wt)))) = some (some true) := by decide
theorem test_tournament_train_local_right :
    see State.inst (exec (.tournamentTrain 9 false) (block (.tournament (tn .wnt .wt .wnt)))) =
    some (.tournament (tn .wt .wnt .snt)) := by decide
/-- Record 3 of the four-record trace of V-TN. -/
theorem test_tournament_train_trace :
    see State.inst (exec (.tournamentTrain 5 true)
      (block (.tournament { tn .snt .wnt .wnt with
        tg := 2, tl := 2, pi := 2, ghr := 2, gct := [(0, .wt), (1, .snt)], lht := [(1, 1)] }))) =
    some (.tournament { tn .snt .wnt .wnt with
        tg := 2, tl := 2, pi := 2, ghr := 1, gct := [(0, .wt), (1, .snt), (2, .wt)], lht := [(1, 3)],
        lct := [(1, .wt)] }) := by decide
theorem test_perceptron_predict :
    see State.resp (exec (.perceptronPredict 0) (block (.perceptron (pc1 10 0b101 [2, -1, 3])))) =
    some (some true) := by decide
theorem test_perceptron_predict_tie :
    see State.resp (exec (.perceptronPredict 0x40) (block (.perceptron (pc1 0 0 [0, 0])))) = some (some false) := by decide
theorem test_perceptron_train :
    see State.inst (exec (.perceptronTrain 0 true) (block (.perceptron (pc1 10 0b101 [2, -1, 3])))) =
      some (.perceptron (pc1 10 0b011 [3, -2, 4])) ∧
    see State.inst (exec (.perceptronTrain 0 true) (block (.perceptron (pc1 6 0b101 [2, -1, 3])))) =
      some (.perceptron (pc1 6 0b011 [2, -1, 3])) := by decide
theorem test_perceptron_train_wraps :
    see State.inst (exec (.perceptronTrain 0 true) (block (.perceptron (pc1 0xFFFFFFFF 1 [0x7FFFFFFF])))) =
      some (.perceptron (pc1 0xFFFFFFFF 1 [0x80000000])) := by decide
/-- V-FLT: a PREDICT after OpFault is refused. -/
theorem test_predict_while_faulted :
    see (fun t => (t.resp, t.err, t.errCode, t.inst)) (step (faulted (.gshare gs))) =
    some (none, true, 2, .gshare gs) := by decide
/-- V-FLT: a reset with TG = 33. -/
theorem test_failed_reset :
    see (fun t => (t.err, t.errCode, t.inst.scheme)) (step { block .static with
      inbox := [.reset { scheme := some .tournament, tg := some 33, tl := some 0, pi := some 0 } none] }) =
    some (true, 1, none) := by decide
theorem test_reset_recovers :
    see (fun t => (t.err, t.errCode, t.inst)) (step { faulted .static with inbox := [.reset Config.atReset none] }) =
    some (false, 0, .gshare gs) := by decide
theorem test_reset_is_applyReset : State.applyReset State.reset Config.atReset = State.reset ∧
    core.reset = State.reset := ⟨by decide, rfl⟩

/-! ### Witnesses: states and operands that meet the hypotheses of each statement -/

theorem ready_block {i : Instance} (h : i.scheme.isSome = true) : (block i).Ready := ⟨h, rfl⟩

theorem gs_sound : gs.Sound := by
  refine ⟨?_, ?_, ?_⟩ <;> decide

/-- A gshare of 32 history bits, all set, whose last counter is trained. -/
def gsWide : Gshare := { hb := 40, initGs := .snt, ghr := 2 ^ 32 - 1, pht := [(2 ^ 32 - 1, .st)] }

theorem gsWide_sound : gsWide.Sound := by
  refine ⟨?_, ?_, ?_⟩ <;> decide

theorem tn_sound : (tn .wnt .wt .wnt).Sound := by
  exact ⟨by decide, by decide, by decide, ⟨by decide, fun _ => by exact Nat.one_pos⟩, by decide⟩

/-- The widest tournament, with the last entry of the LHT at its largest pattern. -/
def tnWide : Tournament :=
  { tg := 32, tl := 32, pi := 32, initTg := .wnt, initTl := .st, initMeta := .wnt, ghr := 2 ^ 32 - 1
    gct := [(2 ^ 32 - 1, .st)], lht := [(2 ^ 32 - 1, 2 ^ 32 - 1)], lct := [(2 ^ 32 - 1, .wnt)], metaCtr := .st }

theorem tnWide_sound : tnWide.Sound := by
  refine ⟨?_, ?_, ?_, ⟨?_, fun i => ?_⟩, ?_⟩
  · decide
  · decide
  · decide
  · decide
  · show (if 2 ^ 32 - 1 = i then 2 ^ 32 - 1 else 0) < 2 ^ 32
    split <;> decide
  · decide

theorem pc1_sound : (pc1 10 0b101 [2, -1, 3]).Sound := by
  refine ⟨?_, ?_, ?_, fun b => ?_⟩
  · decide
  · decide
  · decide
  · show (if 0 = b then ([2, -1, 3] : List Weight) else [0, 0, 0]).length = 3
    split <;> rfl

theorem witness_DecodeEncodeRoundTrip :
    Instr.wellFormed .gshare (.gshareTrain 0xFFFFFFFF true) = true ∧ Instr.wellFormed .static .reserved = true := by
  decide
theorem witness_OperationCodeAloneSelectsTheOperation :
    (0x1FFFFFFFF : Request).toNat / 2 ^ 33 = 0 ∧ (0x200000000 : Request).toNat / 2 ^ 33 = 1 ∧
    (0x3FFFFFFFF : Request).toNat / 2 ^ 33 = 1 ∧ (0x400000000 : Request).toNat / 2 ^ 33 = 2 ∧
    (0x5FFFFFFFF : Request).toNat / 2 ^ 33 = 2 ∧ (0x600000000 : Request).toNat / 2 ^ 33 = 3 := by decide
theorem witness_DontCareBitsAreIgnored :
    ((0x3FFFFFFFF : Request).toNat / 2 ^ 33 = 1 ∧ (0x2FFFFFFFF : Request).toNat / 2 ^ 33 = 1 ∧
      (0x3FFFFFFFF : Request).toNat % 2 ^ 32 = (0x2FFFFFFFF : Request).toNat % 2 ^ 32) ∧
    ((0 : Request).toNat / 2 ^ 33 = 0 ∧ (0x1FFFFFFFF : Request).toNat / 2 ^ 33 = 0) ∧
    ((0x600000000 : Request).toNat / 2 ^ 33 = 3 ∧ (0x7FFFFFFFF : Request).toNat / 2 ^ 33 = 3) := by decide
theorem witness_GlobalHistoryHoldsNewestOutcomes :
    gs.ghr = 0 ∧ (tn .wnt .wt .wnt).ghr = 0 ∧ (pc1 0 0 [0]).phr = 0 := by decide
theorem witness_LocalHistoryHoldsItsSlotsOutcomes : (tn .wnt .wt .wnt).lht = [] := by decide
theorem witness_NopSkips : (block .static).Ready ∧
    ((faulted .static).inst ≠ .unbuilt ∧ (faulted .static).err = true) := ⟨⟨rfl, rfl⟩, by decide⟩
theorem witness_ReservedRequestRaisesOpFault : (block (.perceptron (pc1 0 0 [0]))).Ready := ⟨rfl, rfl⟩
theorem witness_StaticPredictsTaken_and_StaticTrainSkips :
    ((block .static).inst = .static ∧ (block .static).err = false) ∧
    ((faulted .static).inst = .static ∧ (faulted .static).err = true) := by decide
theorem witness_GsharePredictReadsTheIndexedCounter :
    ((block (.gshare gsWide)).inst = .gshare gsWide ∧ (block (.gshare gsWide)).err = false) ∧
    (gs.Sound ∧ Table.read gs.pht gs.initGs ((4 ^^^ (gs.ghr % 2 ^ 2)) % 2 ^ 2) = gs.initGs) ∧
    ((faulted (.gshare gs)).inst = .gshare gs ∧ (faulted (.gshare gs)).err = true) :=
  ⟨by decide, ⟨gs_sound, by decide⟩, by decide⟩
theorem witness_GshareTrainMovesOneCounterAndShifts :
    ((block (.gshare gs)).inst = .gshare gs ∧ gs.Sound ∧ (block (.gshare gs)).err = false) ∧
    ((faulted (.gshare gsWide)).inst = .gshare gsWide ∧ gsWide.Sound ∧ (faulted (.gshare gsWide)).err = true) :=
  ⟨⟨rfl, gs_sound, rfl⟩, rfl, gsWide_sound, rfl⟩
theorem witness_TournamentPredictChoosesAVote :
    ((block (.tournament tnWide)).inst = .tournament tnWide ∧ (block (.tournament tnWide)).err = false) ∧
    ((faulted (.tournament tnWide)).inst = .tournament tnWide ∧ (faulted (.tournament tnWide)).err = true) := by decide
/-- The three cases of META: the votes agree, the local one is right, the global one is right. -/
theorem witness_TournamentTrainUpdatesFromPreUpdateState :
    ((block (.tournament (tn .wnt .wt .wnt))).inst = .tournament (tn .wnt .wt .wnt) ∧ (tn .wnt .wt .wnt).Sound ∧
      (block (.tournament (tn .wnt .wt .wnt))).err = false) ∧
    ((faulted (.tournament tnWide)).inst = .tournament tnWide ∧ tnWide.Sound ∧
      (faulted (.tournament tnWide)).err = true) ∧
    ((tn .wnt .wt .wt).globalVote = (tn .wnt .wt .wt).localVote 0) ∧
    ((tn .wnt .wt .wnt).globalVote ≠ (tn .wnt .wt .wnt).localVote 0 ∧ (tn .wnt .wt .wnt).localVote 0 = false) ∧
    ((tn .wnt .wt .wnt).globalVote ≠ (tn .wnt .wt .wnt).localVote 0 ∧ (tn .wnt .wt .wnt).globalVote = true) :=
  ⟨⟨rfl, tn_sound, rfl⟩, ⟨rfl, tnWide_sound, rfl⟩, by decide, by decide, by decide⟩
theorem witness_PerceptronPredictIsTheSignOfTheScore :
    ((block (.perceptron (pc1 0 1 [1]))).inst = .perceptron (pc1 0 1 [1]) ∧
      (block (.perceptron (pc1 0 1 [1]))).err = false) ∧
    ((faulted (.perceptron (pc1 0 1 [1]))).inst = .perceptron (pc1 0 1 [1]) ∧
      (faulted (.perceptron (pc1 0 1 [1]))).err = true) := by decide
/-- Rows 1 and 2 of V-PC: the row trains, and it does not. -/
theorem witness_PerceptronTrainMovesOneRowAndShifts :
    ((block (.perceptron (pc1 10 0b101 [2, -1, 3]))).inst = .perceptron (pc1 10 0b101 [2, -1, 3]) ∧
      (pc1 10 0b101 [2, -1, 3]).Sound ∧ (block (.perceptron (pc1 10 0b101 [2, -1, 3]))).err = false) ∧
    (pc1 10 0b101 [2, -1, 3]).trainCond 0 true = true ∧ (pc1 6 0b101 [2, -1, 3]).trainCond 0 true = false ∧
    (faulted (.perceptron (pc1 10 0b101 [2, -1, 3]))).err = true :=
  ⟨⟨rfl, pc1_sound, rfl⟩, by decide, by decide, rfl⟩
theorem witness_RequestFrame : (∃ t, exec .nop (block .static) = .next t) ∧
    (∃ t, exec (.gshareTrain 4 true) (block (.gshare gs)) = .next t ∧ t.inst ≠ .gshare gs) ∧
    (∃ t, exec (.staticPredict 4) (block .static) = .next t ∧ t.resp ≠ none) ∧
    ∃ t, exec .reserved (block .static) = .next t ∧ t.err = true :=
  ⟨⟨_, rfl⟩, ⟨_, rfl, by decide⟩, ⟨_, rfl, by decide⟩, _, rfl, rfl⟩
theorem witness_ScoreIsOrderIndependent :
    [3, 2, 1].Perm ((pc1 10 0b101 [2, -1, 3]).terms ((pc1 10 0b101 [2, -1, 3]).bucket 0)) := by decide
theorem witness_TrainingSkippedOnlyWhenRightAndConfident : 2 ^ 31 < (pc1 0x80000001 0 [0]).theta.toNat := by decide
theorem witness_PerceptronFirstCall :
    ∃ p : Perceptron, (block (.perceptron p)).inst = .perceptron p ∧ (block (.perceptron p)).err = false ∧ p.Sound ∧
      p.theta = 0 ∧ ∀ b i, p.weight b i = 0 := by
  refine ⟨{ h := 1, n := 1, theta := 0, percHash := [], phr := 1, w := [] }, rfl, rfl,
    ⟨by decide, by decide, by decide, fun _ => rfl⟩, rfl, fun b i => ?_⟩
  show sint32 ([0].getD i 0) = 0
  rcases i with _ | i <;> rfl
theorem witness_PerceptronLearnsAlternation :
    ∃ c : Config, c.scheme = some .perceptron ∧ c.h = some 1 ∧ c.n = some 1 ∧ c.theta = some 3 ∧
      (3 : Word).toNat < 2 ^ 31 :=
  ⟨{ scheme := some .perceptron, h := some 1, n := some 1, theta := some 3 }, by decide⟩
theorem witness_IndicesAreInRange : gsWide.Sound ∧ tnWide.Sound ∧ (pc1 10 0b101 [2, -1, 3]).Sound :=
  ⟨gsWide_sound, tnWide_sound, pc1_sound⟩
theorem witness_GshareIndexCorners :
    ({ gs with hb := 0 } : Gshare).hb.toNat = 0 ∧
    (({ gs with hb := 31 } : Gshare).hb.toNat ≤ 31 ∧ (0x80000001 : Word).toNat % 2 ^ 31 = (1 : Word).toNat % 2 ^ 31) ∧
    (32 ≤ ({ gs with hb := 32 } : Gshare).hb.toNat ∧ gs.ghr < 2 ^ 32) := by decide
theorem witness_TournamentAliasesShareASlot : (5 : Word).toNat % 2 ^ 2 = (0xFFFFFFFD : Word).toNat % 2 ^ 2 := by decide
theorem witness_UnseenIndexPredictsNotTaken : gs.Sound ∧ gs.pht = [] ∧
    (∀ k, k < 1 → ∀ x, ([(4, true)] : List Training)[k]? = some x →
      (gs.after (([(4, true)] : List Training).take k)).index x.1 ≠ (gs.after [(4, true)]).index 4) := by
  refine ⟨gs_sound, rfl, fun k hk x hx => ?_⟩
  obtain rfl : k = 0 := by omega
  cases hx
  decide
theorem witness_FaultEntryKeepsTheFirstFault : (block .static).err = false ∧ (faulted .static).err = true := by decide
theorem witness_FaultedBlockRefusesEveryRequest : (faulted .static).inst ≠ .unbuilt ∧ (faulted .static).err = true ∧
    (faulted .static).inbox = .request 0x200000000 :: [] := by decide
theorem witness_OnlyTwoFaultClassesSetErr :
    (∃ t, step { block .static with inbox := [.reset { scheme := none } none] } = .next t ∧ t.err = true) ∧
    ∃ t, step { block .static with inbox := [.request 0x600000000] } = .next t ∧ t.err = true :=
  ⟨⟨_, rfl, rfl⟩, _, rfl, rfl⟩
theorem witness_OnlyResetClearsErr :
    ∃ t, step { faulted .static with inbox := [.reset Config.atReset none] } = .next t ∧ t.err = false :=
  ⟨_, rfl, rfl⟩
theorem witness_HealthyBlockNeverFaultsOnAnOperation : (block (.gshare gs)).Ready ∧
    isReserved 0x5FFFFFFFF = false ∧ isPredict 0x3FFFFFFFF = true ∧ isPredict 0x400000000 = false :=
  ⟨⟨rfl, rfl⟩, by decide⟩
theorem witness_StuckExactlyBeforeReset : (block .unbuilt).inst = .unbuilt ∧
    step { block .unbuilt with inbox := [.request 0] } = .fault .requestBeforeReset := ⟨rfl, rfl⟩
theorem witness_OtherSchemesDoNotExist : (block .static).Ready ∧
    (Instr.gsharePredict 0).scheme = some .gshare ∧ (block .static).inst.scheme ≠ some .gshare :=
  ⟨⟨rfl, rfl⟩, by decide⟩
theorem witness_ResetValues_and_ResetDiscardsEverything :
    ({ faulted .static with inbox := [.reset Config.atReset none] } : State).inbox =
      .reset Config.atReset none :: [] ∧ Config.atReset.wellFormed = true ∧
    ({ block (.gshare gs) with inbox := [.reset Config.atReset (some 0x500000004)] } : State).inbox =
      .reset Config.atReset (some 0x500000004) :: [] ∧
    Config.wellFormed { scheme := some .static } = true ∧
    Config.wellFormed { scheme := some .tournament, tg := some 0, tl := some 32, pi := some 0 } = true ∧
    Config.wellFormed { scheme := some .perceptron, h := some 1, n := some 1, theta := some 0 } = true := by decide
theorem witness_FailedResetRefusesEverything :
    ({ block .static with inbox := [.reset { scheme := some .perceptron } none] } : State).inbox =
      .reset { scheme := some .perceptron } none :: [] ∧ Config.wellFormed { scheme := some .perceptron } = false := by
  decide
theorem witness_PowerLossNeedsAReset : ({ block .static with inbox := [.powerLoss] } : State).inbox =
    .powerLoss :: [] := by decide
/-- The invariant holds of a trained, a faulted and a failed block, each with something to do. -/
theorem witness_StepKeepsTheInvariant :
    ({ block (.gshare gsWide) with inbox := [.request 0x500000004] } : State).Inv ∧ (faulted (.gshare gs)).Inv ∧
    (State.applyReset (block .static) { scheme := none }).Inv ∧
    ∃ t, step { block (.gshare gsWide) with inbox := [.request 0x500000004] } = .next t := by
  refine ⟨⟨gsWide_sound, .inl ⟨rfl, rfl⟩, fun h => ?_⟩, ⟨gs_sound, .inr ⟨rfl, rfl⟩, fun _ => rfl⟩,
    ⟨rfl, ⟨rfl, rfl⟩, fun _ => rfl⟩, _, rfl⟩
  cases h
theorem witness_ParametersAreReadOnly :
    (∃ t, step { block .static with inbox := [.reset Config.atReset none] } = .next t ∧
      t.inst.parameters ≠ Instance.parameters .static) ∧
    ∃ t, step { block .static with inbox := [.powerLoss] } = .next t ∧
      t.inst.parameters ≠ Instance.parameters .static :=
  ⟨⟨_, rfl, by decide⟩, _, rfl, by simp [Instance.parameters]⟩
theorem witness_OnlyTrainAndResetChangeThePredictor :
    (∃ t, step { block (.gshare gs) with inbox := [.request 0x500000004] } = .next t ∧ t.inst ≠ .gshare gs) ∧
    (∃ t, step { block .static with inbox := [.reset Config.atReset none] } = .next t ∧ t.inst ≠ .static) ∧
    ∃ t, step { block .static with inbox := [.powerLoss] } = .next t ∧ t.inst ≠ .static :=
  ⟨⟨_, rfl, by decide⟩, ⟨_, rfl, by decide⟩, _, rfl, by simp⟩
theorem witness_StepRunsTheDecodedRequest : (faulted (.gshare gs)).inst.scheme = some .gshare ∧
    (faulted (.gshare gs)).inbox = .request (encode (.gsharePredict 0)) :: [] ∧
    Instr.wellFormed .gshare (.gsharePredict 0) = true ∧ 0x7FFFFFFFF < 2 ^ 35 := by decide
theorem witness_IdleStepHoldsTheState : (block .static).inbox = [] := rfl
theorem witness_PortStepTakesWhatIsOffered : (block .static).inst.scheme = some .static ∧
    (block .unbuilt).inst = .unbuilt ∧ (block (.invalid { scheme := none })).inst = .invalid { scheme := none } ∧
    ∃ p q r : PortIn, p.rst = true ∧ (q.rst = false ∧ q.reqValid = false) ∧ (r.rst = false ∧ r.reqValid = true) :=
  ⟨rfl, rfl, rfl, ⟨true, true, 1, false, 0⟩, ⟨false, false, 0, false, 0⟩, ⟨false, true, 3, true, 0⟩, by decide⟩
theorem witness_PredictsWithoutTrainAgree : (block (.gshare gs)).Ready ∧ isPredict 0x200000004 = true ∧
    isPredict 0x300000004 = true ∧ pcField 0x200000004 = pcField 0x300000004 ∧
    ∀ r ∈ ([0, 0x200000008] : List Request), isTrain r = false ∧ isReserved r = false := by
  refine ⟨⟨rfl, rfl⟩, by decide, by decide, by decide, fun r hr => ?_⟩
  rcases List.mem_pair.1 hr with rfl | rfl <;> decide
theorem witness_DroppingPredictsChangesNothing : (block .static).inst.scheme.isSome = true := rfl
theorem witness_SparseMap_and_FullWidthHistory :
    ∃ c : Config, c.scheme = some .gshare ∧ c.hb = some 1000 ∧ c.wellFormed = true :=
  ⟨{ scheme := some .gshare, hb := some 1000, initGs := .snt }, by decide⟩
theorem witness_TournamentAnswersDoNotShowTheBitOrder :
    ∃ t : Tournament, (t.tg.toNat ≤ 32 ∧ t.tl.toNat ≤ 32 ∧ t.pi.toNat ≤ 32) ∧ t.ghr = 0 ∧ t.gct = [] ∧ t.lht = [] ∧
      t.lct = [] :=
  ⟨{ tnWide with ghr := 0, gct := [], lht := [], lct := [] }, by decide⟩
theorem witness_PerceptronAnswersDoNotShowTheBitOrder :
    ∃ p : Perceptron, 1 ≤ p.n.toNat ∧ p.phr = 0 ∧ p.w = [] :=
  ⟨{ pc1 0 0 [0] with w := [] }, by decide⟩
/-- Records 2 and 3 of program P3. -/
theorem witness_MetaConvergesToTheLocalVote :
    ∃ t : Tournament, t.LocalWins [(0x10, false), (0x10, true)] ∧ t.metaCtr = .wnt := by
  refine ⟨{ tn .wnt .wt .wt with tl := 1, lht := [(0, 1)] }, ⟨?_, ?_, ?_, ?_, trivial⟩, rfl⟩ <;> decide

end Sys2Proof.Tests
end

section
/-! SUPPORT. Every function of a u32 is a hash table (00_scope.md R9, 45_perceptron.md R200; log 8). -/

namespace Sys2Proof.Machine

/-- The hash table that lists the value of `f` at each of the given addresses. -/
def HashTable.tabulate (f : Word → Word) (addrs : List Word) : HashTable := addrs.map fun a => (a, f a)

theorem HashTable.apply_cons (a v : Word) (rest : HashTable) (pc : Word) :
    HashTable.apply ((a, v) :: rest) pc = if a = pc then v else HashTable.apply rest pc := rfl

theorem HashTable.apply_tabulate (f : Word → Word) {addrs : List Word} {pc : Word} (h : pc ∈ addrs) :
    HashTable.apply (HashTable.tabulate f addrs) pc = f pc := by
  induction addrs with
  | nil => cases h
  | cons a rest ih =>
    change HashTable.apply ((a, f a) :: HashTable.tabulate f rest) pc = f pc
    rw [HashTable.apply_cons]
    split
    · next heq => rw [heq]
    · next hne => exact ih (List.mem_of_ne_of_mem (Ne.symm hne) h)

/-- There are finitely many addresses, so one list holds them all. -/
theorem exists_list_of_all_words : ∃ addrs : List Word, ∀ pc, pc ∈ addrs :=
  ⟨(List.finRange (2 ^ 32)).map BitVec.ofFin, fun pc => List.mem_map.2 ⟨pc.toFin, List.mem_finRange _, rfl⟩⟩

/-- Settles O30: `f` tabulated over all addresses. -/
theorem everyHashFunctionIsRepresented : Obligations.EveryHashFunctionIsRepresented := by
  intro f
  obtain ⟨addrs, hall⟩ := exists_list_of_all_words
  exact ⟨HashTable.tabulate f addrs, fun pc => HashTable.apply_tabulate f (hall pc)⟩

end Sys2Proof.Machine
end

section
/-! SUPPORT. A rule run in a block built for another scheme (00_scope.md R2, 30_encoding.md R74; log 12). -/

namespace Sys2Proof.Machine

variable {s : State}

theorem State.withStatic_of_scheme_ne (h : s.inst.scheme ≠ some .static) (run : Result) :
    s.withStatic run = .refused .schemeNotBuilt := by
  unfold State.withStatic
  split
  · next hi => exact absurd (congrArg Instance.scheme hi) h
  · rfl

theorem State.withGshare_of_scheme_ne (h : s.inst.scheme ≠ some .gshare) (run : Gshare → Result) :
    s.withGshare run = .refused .schemeNotBuilt := by
  unfold State.withGshare
  split
  · next hi => exact absurd (congrArg Instance.scheme hi) h
  · rfl

theorem State.withTournament_of_scheme_ne (h : s.inst.scheme ≠ some .tournament) (run : Tournament → Result) :
    s.withTournament run = .refused .schemeNotBuilt := by
  unfold State.withTournament
  split
  · next hi => exact absurd (congrArg Instance.scheme hi) h
  · rfl

theorem State.withPerceptron_of_scheme_ne (h : s.inst.scheme ≠ some .perceptron) (run : Perceptron → Result) :
    s.withPerceptron run = .refused .schemeNotBuilt := by
  unfold State.withPerceptron
  split
  · next hi => exact absurd (congrArg Instance.scheme hi) h
  · rfl

/-- Settles O37: the block takes the request, and the rule of the instruction's scheme finds no state to run on. -/
theorem otherSchemesDoNotExist : Obligations.OtherSchemesDoNotExist := by
  intro s i sch ⟨hbuilt, herr⟩ hi hne
  have htake : ∀ run, s.take run = run s.silent :=
    State.take_ready (Instance.built_ne_unbuilt hbuilt) herr
  cases i with
  | nop | reserved => cases hi
  | staticPredict pc | staticTrain pc o =>
    cases hi
    simp only [exec, execStaticPredict, execStaticTrain, htake]
    exact State.withStatic_of_scheme_ne hne _
  | gsharePredict pc | gshareTrain pc o =>
    cases hi
    simp only [exec, execGsharePredict, execGshareTrain, htake]
    exact State.withGshare_of_scheme_ne hne _
  | tournamentPredict pc | tournamentTrain pc o =>
    cases hi
    simp only [exec, execTournamentPredict, execTournamentTrain, htake]
    exact State.withTournament_of_scheme_ne hne _
  | perceptronPredict pc | perceptronTrain pc o =>
    cases hi
    simp only [exec, execPerceptronPredict, execPerceptronTrain, htake]
    exact State.withPerceptron_of_scheme_ne hne _

end Sys2Proof.Machine
end

section
/-! SUPPORT. The configuration check and what it lets a reset build (60_exceptions.md R232, 10_state.md
R39, R40). -/

namespace Sys2Proof.Machine

variable {c : Config} {i : Instance}

theorem Config.given_iff {x : Option Word} {p : Word → Bool} :
    Config.given x p = true ↔ ∃ a, x = some a ∧ p a = true := Option.any_eq_true _ _

theorem buildGshare_eq_some : buildGshare c = some i ↔
    ∃ hb, c.hb = some hb ∧ (c.initGs = .snt ∨ c.initGs = .wnt) ∧
      i = .gshare { hb := hb, initGs := c.initGs, ghr := 0, pht := [] } := by
  simp [buildGshare, Option.bind_eq_some_iff, @eq_comm _ i]

theorem buildTournament_eq_some : buildTournament c = some i ↔
    ∃ tg tl pi, (c.tg = some tg ∧ c.tl = some tl ∧ c.pi = some pi) ∧
      (tg.toNat ≤ 32 ∧ tl.toNat ≤ 32 ∧ pi.toNat ≤ 32) ∧
      i = .tournament { tg := tg, tl := tl, pi := pi, initTg := c.initTg, initTl := c.initTl,
                        initMeta := c.initMeta, ghr := 0, gct := [], lht := [], lct := [],
                        metaCtr := c.initMeta } := by
  simp [buildTournament, Option.bind_eq_some_iff, @eq_comm _ i, and_assoc]

theorem buildPerceptron_eq_some : buildPerceptron c = some i ↔
    ∃ h n theta, (c.h = some h ∧ c.n = some n ∧ c.theta = some theta) ∧ (1 ≤ h.toNat ∧ 1 ≤ n.toNat) ∧
      i = .perceptron { h := h, n := n, theta := theta, percHash := c.percHash, phr := 0, w := [] } := by
  simp [buildPerceptron, Option.bind_eq_some_iff, @eq_comm _ i, and_assoc]

/-- The predicate that reads the check of R232 accepts the configurations for which a reset builds a predictor. -/
theorem buildInstance_isSome (c : Config) : (buildInstance c).isSome = c.wellFormed := by
  rw [Bool.eq_iff_iff, Option.isSome_iff_exists]
  rcases hs : c.scheme with _ | sch
  · simp [buildInstance, Config.wellFormed, hs]
  · cases sch <;> simp only [buildInstance, Config.wellFormed, hs]
    case static => simp
    case gshare =>
      simp only [buildGshare_eq_some, Bool.and_eq_true, Config.given_iff, Bool.or_eq_true, beq_iff_eq, and_true]
      exact ⟨fun ⟨_, hb, e, hi, _⟩ => ⟨⟨hb, e⟩, hi⟩, fun ⟨⟨hb, e⟩, hi⟩ => ⟨_, hb, e, hi, rfl⟩⟩
    case tournament =>
      simp only [buildTournament_eq_some, Bool.and_eq_true, Config.given_iff, decide_eq_true_eq]
      exact ⟨
        fun ⟨_, g, l, p, ⟨eg, el, ep⟩, ⟨hg, hl, hp⟩, _⟩ => ⟨⟨⟨g, eg, hg⟩, ⟨l, el, hl⟩⟩, ⟨p, ep, hp⟩⟩,
        fun ⟨⟨⟨g, eg, hg⟩, ⟨l, el, hl⟩⟩, ⟨p, ep, hp⟩⟩ => ⟨_, g, l, p, ⟨eg, el, ep⟩, ⟨hg, hl, hp⟩, rfl⟩⟩
    case perceptron =>
      simp only [buildPerceptron_eq_some, Bool.and_eq_true, Config.given_iff, decide_eq_true_eq, and_true]
      exact ⟨
        fun ⟨_, h, n, t, ⟨eh, en, et⟩, ⟨hh, hn⟩, _⟩ => ⟨⟨⟨h, eh, hh⟩, ⟨n, en, hn⟩⟩, ⟨t, et⟩⟩,
        fun ⟨⟨⟨h, eh, hh⟩, ⟨n, en, hn⟩⟩, ⟨t, et⟩⟩ => ⟨_, h, n, t, ⟨eh, en, et⟩, ⟨hh, hn⟩, rfl⟩⟩

theorem exists_buildInstance_of_wellFormed (h : c.wellFormed = true) : ∃ i, buildInstance c = some i :=
  Option.isSome_iff_exists.1 ((buildInstance_isSome c).trans h)

theorem buildInstance_eq_none_iff : buildInstance c = none ↔ c.wellFormed = false := by
  rw [← buildInstance_isSome, Option.isSome_eq_false_iff, Option.isNone_iff_eq_none]

/-- What a reset builds is of the scheme asked for. -/
theorem scheme_of_buildInstance (h : buildInstance c = some i) : i.scheme = c.scheme := by
  unfold buildInstance at h
  split at h
  case h_1 => cases h
  case h_2 hs => cases h; exact hs.symm
  case h_3 hs => obtain ⟨_, _, _, rfl⟩ := buildGshare_eq_some.1 h; exact hs.symm
  case h_4 hs => obtain ⟨_, _, _, _, _, rfl⟩ := buildTournament_eq_some.1 h; exact hs.symm
  case h_5 hs => obtain ⟨_, _, _, _, _, rfl⟩ := buildPerceptron_eq_some.1 h; exact hs.symm

theorem isSome_scheme_of_buildInstance (h : buildInstance c = some i) : i.scheme.isSome = true := by
  rw [scheme_of_buildInstance h]
  cases hs : c.scheme with
  | none => simp [buildInstance, hs] at h
  | some sch => rfl

end Sys2Proof.Machine
end

section
/-! SUPPORT. What a request changes, field by field, in a block that is not faulted: each a reading of `Effect`. -/

namespace Sys2Proof.Machine

variable {s t : State} {i : Instr}

theorem State.raise_of_ok (f : FaultClass) (he : s.err = false) :
    s.raise f = { s with err := true, errCode := f.code } := by
  simp [State.raise, he]

theorem Effect.inbox_eq (h : Effect s i t) : t.inbox = s.inbox := by cases h <;> simp

theorem Effect.powerUps_eq (h : Effect s i t) : t.powerUps = s.powerUps := by cases h <;> simp

/-- Nothing but the reserved request touches the status pair (10_state.md R23). -/
theorem Effect.status_eq (h : Effect s i t) (hi : i ≠ .reserved) : t.err = s.err ∧ t.errCode = s.errCode := by
  cases h with
  | reserved => exact absurd rfl hi
  | _ => exact ⟨rfl, rfl⟩

/-- Nothing but a TRAIN of the block's own scheme touches the predictor. -/
theorem Effect.inst_eq_or_train (h : Effect s i t) :
    t.inst = s.inst ∨ ∃ sch pc o, s.inst.scheme = some sch ∧ i = decodeTrain sch pc o := by
  cases h with
  | gshareTrain hs pc o => exact .inr ⟨.gshare, pc, o, by rw [hs]; rfl, rfl⟩
  | tournamentTrain hs pc o => exact .inr ⟨.tournament, pc, o, by rw [hs]; rfl, rfl⟩
  | perceptronTrain hs pc o => exact .inr ⟨.perceptron, pc, o, by rw [hs]; rfl, rfl⟩
  | reserved => exact .inl (State.raise_inst _ _)
  | _ => exact .inl rfl

/-- Nothing but a PREDICT of the block's own scheme answers. -/
theorem Effect.resp_eq_none_or_predict (h : Effect s i t) :
    t.resp = none ∨ ∃ sch pc, s.inst.scheme = some sch ∧ i = decodePredict sch pc := by
  cases h with
  | staticPredict hs pc => exact .inr ⟨.static, pc, by rw [hs]; rfl, rfl⟩
  | gsharePredict hs pc => exact .inr ⟨.gshare, pc, by rw [hs]; rfl, rfl⟩
  | tournamentPredict hs pc => exact .inr ⟨.tournament, pc, by rw [hs]; rfl, rfl⟩
  | perceptronPredict hs pc => exact .inr ⟨.perceptron, pc, by rw [hs]; rfl, rfl⟩
  | reserved => exact .inl (State.raise_resp _ _)
  | _ => exact .inl rfl

/-- A training writes no parameter (10_state.md R24), so no request does. -/
theorem Effect.parameters_eq (h : Effect s i t) : t.inst.parameters = s.inst.parameters := by
  cases h with
  | gshareTrain hs | tournamentTrain hs | perceptronTrain hs => rw [hs]; rfl
  | reserved => rw [State.raise_inst]; rfl
  | _ => rfl

theorem Effect.scheme_eq (h : Effect s i t) : t.inst.scheme = s.inst.scheme := by
  cases h with
  | gshareTrain hs | tournamentTrain hs | perceptronTrain hs => rw [hs]; rfl
  | reserved => rw [State.raise_inst]; rfl
  | _ => rfl

theorem Effect.sound (h : Effect s i t) (hs : s.inst.Sound) : t.inst.Sound := by
  cases h with
  | gshareTrain hi pc o => rw [hi] at hs; exact Gshare.train_sound hs pc o
  | tournamentTrain hi pc o => rw [hi] at hs; exact Tournament.train_sound hs pc o
  | perceptronTrain hi pc o => rw [hi] at hs; exact Perceptron.train_sound hs pc o
  | reserved => rw [State.raise_inst]; exact hs
  | _ => exact hs

/-- Settles O21: a refused request changes nothing, and the others are read off `Effect`. -/
theorem requestFrame : Obligations.RequestFrame := by
  intro i s t h
  obtain ⟨-, ⟨-, rfl⟩ | ⟨he, heff⟩⟩ := exec_next h
  · exact ⟨rfl, rfl, rfl, fun _ => ⟨rfl, rfl⟩, fun hne => absurd rfl hne, fun hne => absurd rfl hne⟩
  · exact ⟨heff.inbox_eq, heff.powerUps_eq, heff.parameters_eq, heff.status_eq,
      fun hne => ⟨he, heff.inst_eq_or_train.resolve_left hne⟩,
      fun hne => ⟨he, heff.resp_eq_none_or_predict.resolve_left hne⟩⟩

theorem exec_inbox_eq (h : exec i s = .next t) : t.inbox = s.inbox := by
  obtain ⟨hinbox, -⟩ := requestFrame i s t h
  exact hinbox

theorem exec_parameters_eq (h : exec i s = .next t) : t.inst.parameters = s.inst.parameters := by
  obtain ⟨-, -, hparameters, -⟩ := requestFrame i s t h
  exact hparameters

/-- Settles O45: an idle step, a refused request and a request that runs all leave the parameters. -/
theorem parametersAreReadOnly : Obligations.ParametersAreReadOnly := by
  intro s t h hne
  obtain ⟨-, rfl⟩ | ⟨c, q, rest, hb, -⟩ | ⟨rest, hb, -⟩ |
    ⟨req, rest, -, ⟨c, -, rfl⟩ | ⟨sch, -, hx⟩⟩ := step_next h
  · exact absurd rfl hne
  · exact .inl ⟨c, q, rest, hb⟩
  · exact .inr ⟨rest, hb⟩
  · exact absurd rfl hne
  · exact absurd (exec_parameters_eq hx) hne

/-- A request never clears `err`: a faulted block refuses it (60_exceptions.md R236). -/
theorem exec_err_of_err (he : s.err = true) (h : exec i s = .next t) : t.err = true := by
  obtain ⟨-, ⟨-, rfl⟩ | ⟨hf, -⟩⟩ := exec_next h
  · exact he
  · exact absurd hf (by simp [he])

/-- Settles O34: of the events that can meet a faulted block, only a reset can leave `err` at 0, and then its check
passed. -/
theorem onlyResetClearsErr : Obligations.OnlyResetClearsErr := by
  intro s t h he ht
  obtain ⟨-, rfl⟩ | ⟨c, q, rest, hb, rfl⟩ | ⟨rest, hb, -⟩ |
    ⟨req, rest, -, ⟨c, -, rfl⟩ | ⟨sch, -, hx⟩⟩ := step_next h
  · cases he.symm.trans ht
  · refine .inl ⟨c, q, rest, hb, ?_⟩
    cases hc : buildInstance c with
    | none => simp [State.applyReset_none _ hc] at ht
    | some j => exact ⟨by simp [← buildInstance_isSome, hc], by simp [State.applyReset_some _ hc]⟩
  · exact .inr ⟨rest, hb⟩
  · cases he.symm.trans ht
  · cases (exec_err_of_err (s := { s with inbox := rest }) he hx).symm.trans ht

end Sys2Proof.Machine
end

section
/-! SUPPORT. The invariant of the machine: reset establishes it and every step keeps it (10_state.md R23 to R34,
R39, R40; 60_exceptions.md R236). -/

namespace Sys2Proof.Machine

variable {s t : State} {i : Instr}

theorem State.statusLegal_of_scheme (h : s.inst.scheme.isSome = true) :
    s.StatusLegal ↔ (s.err = false ∧ s.errCode = 0) ∨ (s.err = true ∧ s.errCode = 2) := by
  unfold State.StatusLegal
  cases hi : s.inst with
  | unbuilt | invalid c => simp [hi, Instance.scheme] at h
  | _ => exact Iff.rfl

/-- Clearing the response ports and taking an event from the host are no part of the invariant. -/
theorem State.Inv.silent (h : s.Inv) (rest : List PortEvent) : { s with inbox := rest, resp := none }.Inv :=
  ⟨h.1, h.2.1, fun _ => rfl⟩

theorem State.applyReset_inv (s : State) (c : Config) : (s.applyReset c).Inv := by
  cases hc : buildInstance c with
  | none =>
    rw [State.applyReset_none _ hc]
    exact ⟨buildInstance_eq_none_iff.1 hc, ⟨rfl, rfl⟩, fun _ => rfl⟩
  | some j =>
    rw [State.applyReset_some _ hc]
    exact ⟨buildInstance_sound hc,
      (State.statusLegal_of_scheme (isSome_scheme_of_buildInstance hc)).2 (.inl ⟨rfl, rfl⟩), fun _ => rfl⟩

theorem State.losePower_inv (s : State) : s.losePower.Inv := ⟨trivial, trivial, fun _ => rfl⟩

/-- A request that runs keeps the status pair legal, and leaves no answer beside a fault. -/
theorem Effect.status_inv (h : Effect s i t) (he : s.err = false) (hc : s.errCode = 0) :
    ((t.err = false ∧ t.errCode = 0) ∨ (t.err = true ∧ t.errCode = 2)) ∧ (t.err = true → t.resp = none) := by
  by_cases hi : i = .reserved
  · subst hi
    cases h
    rw [State.raise_of_ok _ (s := s.silent) he]
    exact ⟨.inr ⟨rfl, rfl⟩, fun _ => rfl⟩
  · obtain ⟨h1, h2⟩ := h.status_eq hi
    rw [he] at h1
    exact ⟨.inl ⟨h1, h2.trans hc⟩, fun ht => by simp [h1] at ht⟩

theorem exec_inv (hsch : s.inst.scheme.isSome = true) (hinv : s.Inv) (h : exec i s = .next t) : t.Inv := by
  obtain ⟨-, ⟨-, rfl⟩ | ⟨he, heff⟩⟩ := exec_next h
  · exact hinv.silent s.inbox
  · obtain ⟨hsound, hstatus, -⟩ := hinv
    have hc : s.errCode = 0 := by simpa [he] using (State.statusLegal_of_scheme hsch).1 hstatus
    obtain ⟨hlegal, hresp⟩ := heff.status_inv he hc
    exact ⟨heff.sound hsound, (State.statusLegal_of_scheme (by rw [heff.scheme_eq, hsch])).2 hlegal, hresp⟩

/-- Settles O44, by what each event can do. -/
theorem stepKeepsTheInvariant : Obligations.StepKeepsTheInvariant := by
  intro s t hinv h
  obtain ⟨-, rfl⟩ | ⟨c, q, rest, -, rfl⟩ | ⟨rest, -, rfl⟩ |
    ⟨req, rest, -, ⟨c, -, rfl⟩ | ⟨sch, hi, hx⟩⟩ := step_next h
  · exact hinv.silent s.inbox
  · exact State.applyReset_inv _ c
  · exact State.losePower_inv _
  · exact hinv.silent rest
  · exact exec_inv (s := { s with inbox := rest }) (by simp [hi]) hinv hx

/-- Settles O43: the reset state is itself the state after a reset. -/
theorem resetStateKeepsTheInvariant : Obligations.ResetStateKeepsTheInvariant := by
  have hreset : State.reset.applyReset Config.atReset = State.reset := by decide
  exact ⟨hreset ▸ State.applyReset_inv _ _, State.applyReset_inv⟩

end Sys2Proof.Machine
end

section
/-! SUPPORT. What stands after a reset (10_state.md R39, R40), and the storage of each scheme (10_state.md R35). -/

namespace Sys2Proof.Machine

variable {s : State} {c : Config}

/-- A weight of a table with no entry: every row is `H` zeros. -/
theorem Perceptron.weight_of_nil {p : Perceptron} (h : p.w = []) (b i : Nat) : p.weight b i = 0 := by
  simp [Perceptron.weight, Perceptron.row, Perceptron.zeroRow, h, sint32]

theorem step_reset_ok {q : Option Request} {rest : List PortEvent} {j : Instance}
    (hb : s.inbox = .reset c q :: rest) (hj : buildInstance c = some j) :
    step s = .next { s with inst := j, err := false, errCode := 0, resp := none, inbox := rest } := by
  rw [step_reset_event hb, State.applyReset_some _ hj]

theorem step_reset_failed {q : Option Request} {rest : List PortEvent}
    (hb : s.inbox = .reset c q :: rest) (hc : buildInstance c = none) :
    step s = .next { s with inst := .invalid c, err := true, errCode := 1, resp := none, inbox := rest } := by
  rw [step_reset_event hb, State.applyReset_none _ hc]

/-- Settles O39: what a reset builds, scheme by scheme. -/
theorem resetValues : Obligations.ResetValues := by
  intro s c q rest hb hc
  obtain ⟨i, hi⟩ := exists_buildInstance_of_wellFormed hc
  refine ⟨i, step_reset_ok hb hi, fun hs => ?_, fun hs => ?_, fun hs => ?_, fun hs => ?_⟩ <;>
    simp only [buildInstance, hs] at hi
  case refine_1 => exact (Option.some.inj hi).symm
  case refine_2 =>
    obtain ⟨hb, e, -, rfl⟩ := buildGshare_eq_some.1 hi
    exact ⟨_, rfl, e, rfl, rfl, fun _ => rfl⟩
  case refine_3 =>
    obtain ⟨tg, tl, pi, ⟨eg, el, ep⟩, -, rfl⟩ := buildTournament_eq_some.1 hi
    exact ⟨_, rfl, eg, el, ep, rfl, rfl, rfl, rfl, fun _ => rfl, fun _ => rfl, fun _ => rfl, rfl⟩
  case refine_4 =>
    obtain ⟨h, n, theta, ⟨eh, en, et⟩, -, rfl⟩ := buildPerceptron_eq_some.1 hi
    exact ⟨_, rfl, eh, en, et, rfl, rfl, Perceptron.weight_of_nil rfl⟩

/-- The first request of a list takes its step, then the others run from the state it leaves. -/
theorem runRequests_cons_of_step {r : Request} {rest : List Request} {u v : State} {answers : List BranchOutcome}
    (hstep : step (s.offer (r :: rest)) = .next u) (hinbox : u.inbox = rest.map .request)
    (hv : runRequests u rest = .next (answers, v)) :
    runRequests s (r :: rest) = .next (u.resp.toList ++ answers, v) := by
  have hoffer : u.offer rest = u := by rw [State.offer, ← hinbox]
  rw [runRequests, hoffer] at hv
  simp only [runRequests, List.length_cons, observe, hstep, hv]

/-- Without predictor state every request of a list is refused (10_state.md R40, 60_exceptions.md R236). -/
theorem runRequests_invalid (hi : s.inst = .invalid c) (hr : s.resp = none) (reqs : List Request) :
    runRequests s reqs = .next ([], { s with inbox := [] }) := by
  induction reqs generalizing s with
  | nil => rfl
  | cons r rest ih =>
    have hstep := step_request_invalid (s := s.offer (r :: rest)) rfl hi
    simpa [hr] using runRequests_cons_of_step hstep rfl (ih hi rfl)

/-- Settles O40: the failed reset leaves no predictor state, so every request after it is refused. -/
theorem failedResetRefusesEverything : Obligations.FailedResetRefusesEverything := by
  intro s c q rest hb hc
  exact ⟨_, step_reset_failed hb (buildInstance_eq_none_iff.2 hc), rfl, runRequests_invalid rfl rfl⟩

/-- Settles O58: the elements of the table of R35, added up. -/
theorem storageSizes : Obligations.StorageSizes := by
  refine ⟨rfl, fun g => ?_, fun t => ?_, fun p => ?_⟩
  · simp only [Instance.storageBits, Instance.elements, Gshare.hbe, List.map, List.sum_cons, List.sum_nil]
    ring
  · simp only [Instance.storageBits, Instance.elements, List.map, List.sum_cons, List.sum_nil]
    ring
  · simp only [Instance.storageBits, Instance.elements, List.map, List.sum_cons, List.sum_nil]
    ring

end Sys2Proof.Machine
end

section
/-! SUPPORT. The outcomes a history register and the local history table hold (41_history.md R120, R121, R124). -/

namespace Sys2Proof.Machine

/-- A shifted register bit by bit: the newest outcome at bit 0, the others one place up. -/
theorem testBit_histShift (h : Nat) (o : BranchOutcome) (w i : Nat) :
    (histShift h o w).testBit i = (decide (i < w) && if i = 0 then o else h.testBit (i - 1)) := by
  rw [histShift, and_mask, Nat.testBit_mod_two_pow, Nat.testBit_or, Nat.testBit_shiftLeft]
  cases i with
  | zero => cases o <;> simp
  | succ i => cases o <;> simp [Nat.testBit_succ]

theorem Tournament.slot_eq (t : Tournament) (pc : Word) : t.slot pc = pc.toNat % 2 ^ t.pi.toNat := and_mask _ _

/-- The entries of the local history table after a training. -/
theorem Tournament.read_lht_train {t : Tournament} {n : Nat} (h : Table.wf t.lht 0 n = true) (pc : Word)
    (o : BranchOutcome) (j : Nat) : Table.read (t.train pc o).lht 0 j =
      if j = t.slot pc then histShift (t.pattern pc) o t.tl.toNat else Table.read t.lht 0 j :=
  Table.read_write h j

theorem Tournament.after_concat (t : Tournament) (ts : List Training) (x : Training) :
    t.after (ts ++ [x]) = (t.after ts).train x.1 x.2 := by
  simp [Tournament.after]

theorem Tournament.after_widths (t : Tournament) (ts : List Training) :
    (t.after ts).tl = t.tl ∧ (t.after ts).pi = t.pi := by
  induction ts generalizing t with
  | nil => exact ⟨rfl, rfl⟩
  | cons x ts ih => exact ih (t.train x.1 x.2)

theorem Tournament.after_lht_wf {t : Tournament} (h : Table.wf t.lht 0 (2 ^ t.pi.toNat) = true)
    (ts : List Training) : Table.wf (t.after ts).lht 0 (2 ^ t.pi.toNat) = true := by
  induction ts generalizing t with
  | nil => exact h
  | cons x ts ih => exact ih (t := t.train x.1 x.2) (Table.write_wf h (t.slot_lt x.1))

/-- Settles O10, by induction on the sequence from its newest training: the slot of that training shifts its
outcome in, and every other slot stays. -/
theorem localHistoryHoldsItsSlotsOutcomes : Obligations.LocalHistoryHoldsItsSlotsOutcomes := by
  intro t ts j i hempty
  have hwf := Tournament.after_lht_wf (t := t) (by rw [hempty]; exact Table.wf_nil _ _)
  induction ts using List.reverseRecOn generalizing i with
  | nil => simp [Tournament.after, hempty]
  | append_singleton ts x ih =>
    obtain ⟨htl, hpi⟩ := t.after_widths ts
    rw [Tournament.after_concat, Tournament.read_lht_train (hwf ts), Tournament.slot_eq, hpi, htl]
    split
    next hj =>
      have hpat : (t.after ts).pattern x.1 = Table.read (t.after ts).lht 0 j := by
        rw [Tournament.pattern, Tournament.slot_eq, hpi, hj]
      rw [hpat, testBit_histShift]
      cases i with
      | zero => simp [hj]
      | succ i =>
        have hlt : i + 1 < t.tl.toNat → i < t.tl.toNat := Nat.lt_of_succ_lt
        by_cases hi : i + 1 < t.tl.toNat <;> simp [← hj, ih, hi, hlt]
    next hj => simp [ih, Ne.symm hj]

end Sys2Proof.Machine
end

section
/-! SUPPORT. The answers of a run are the answers of its predictor, and predictors that simulate each
other give the same ones (70_reset_and_hazards.md R261). -/

namespace Sys2Proof.Machine

/-- A relation that gives equal predictions and that every training keeps gives equal answers. -/
theorem answersOf_eq_of_simulation {σ τ : Type} {predict : σ → Word → BranchOutcome}
    {train : σ → Word → BranchOutcome → σ} {predict' : τ → Word → BranchOutcome}
    {train' : τ → Word → BranchOutcome → τ} (R : σ → τ → Prop)
    (hpredict : ∀ {x y}, R x y → ∀ pc, predict x pc = predict' y pc)
    (htrain : ∀ {x y}, R x y → ∀ pc o, R (train x pc o) (train' y pc o))
    {x : σ} {y : τ} (h : R x y) (reqs : List Request) :
    answersOf predict train x reqs = answersOf predict' train' y reqs := by
  induction reqs generalizing x y with
  | nil => rfl
  | cons r rest ih => rw [answersOf, answersOf, hpredict h, ih h, ih (htrain h _ _)]

variable {s : State} {sch : Scheme}

/-- The first request of a list runs by its decoded rule, then the others from the state it leaves. -/
theorem runRequests_cons {r : Request} {rest : List Request} {u v : State} {answers : List BranchOutcome}
    (hi : s.inst.scheme = some sch) (hx : exec (decode sch r) (s.offer rest) = .next u)
    (hv : runRequests u rest = .next (answers, v)) :
    runRequests s (r :: rest) = .next (u.resp.toList ++ answers, v) := by
  have hstep : step (s.offer (r :: rest)) = .next u := (step_request_scheme (s := s.offer _) rfl hi).trans hx
  exact runRequests_cons_of_step hstep (exec_inbox_eq hx) hv

/-- A faulted block refuses every request (60_exceptions.md R236). -/
theorem exec_faulted (h : s.inst ≠ .unbuilt) (he : s.err = true) (i : Instr) : exec i s = .next s.silent := by
  cases i <;> simp only [exec, execNop, execReserved, execStaticPredict, execStaticTrain, execGsharePredict,
    execGshareTrain, execTournamentPredict, execTournamentTrain, execPerceptronPredict, execPerceptronTrain,
    State.take_faulted h he]

/-- A faulted block answers none of a list of requests (60_exceptions.md R236). -/
theorem runRequests_faulted (hi : s.inst.scheme = some sch) (he : s.err = true) (reqs : List Request) :
    ∃ t, runRequests s reqs = .next ([], t) := by
  induction reqs generalizing s with
  | nil => exact ⟨_, rfl⟩
  | cons r rest ih =>
    have hbuilt : (s.offer rest).inst ≠ .unbuilt := Instance.built_ne_unbuilt (by simp [hi])
    obtain ⟨t, ht⟩ := ih (s := (s.offer rest).silent) hi he
    exact ⟨t, runRequests_cons hi (exec_faulted hbuilt he _) ht⟩

/-- A run of a block of one scheme, given the rules of its PREDICT and its TRAIN: the answers are those of the
predictor alone. -/
theorem runRequests_eq_answersOf {σ : Type} {mk : σ → Instance} {predict : σ → Word → BranchOutcome}
    {train : σ → Word → BranchOutcome → σ} (hscheme : ∀ x, (mk x).scheme = some sch)
    (hpredict : ∀ {s : State}, s.err = false → ∀ {x}, s.inst = mk x → ∀ pc,
      exec (decodePredict sch pc) s = .next (s.respond (predict x pc)))
    (htrain : ∀ {s : State}, s.err = false → ∀ {x}, s.inst = mk x → ∀ pc o,
      exec (decodeTrain sch pc o) s = .next (s.silent.setInst (mk (train x pc o))))
    {x : σ} (hx : s.inst = mk x) (he : s.err = false) (reqs : List Request) :
    ∃ t, runRequests s reqs = .next (answersOf predict train x reqs, t) := by
  induction reqs generalizing s x with
  | nil => exact ⟨_, rfl⟩
  | cons r rest ih =>
    have hi : s.inst.scheme = some sch := hx ▸ hscheme x
    have hbuilt : (s.offer rest).inst ≠ .unbuilt := Instance.built_ne_unbuilt (by simp [hi])
    rcases opField_cases r with hop | hop | hop | hop <;>
      simp only [answersOf, isReserved, isPredict, isTrain, hop]
    · obtain ⟨t, ht⟩ := ih (s := (s.offer rest).silent) hx he
      exact ⟨t, runRequests_cons hi (decode_nop hop ▸ exec_nop he hbuilt) ht⟩
    · obtain ⟨t, ht⟩ := ih (s := (s.offer rest).respond (predict x (pcField r))) hx he
      exact ⟨t, runRequests_cons hi (decode_predict hop ▸ hpredict (s := s.offer rest) he hx _) ht⟩
    · obtain ⟨t, ht⟩ := ih (s := (s.offer rest).silent.setInst (mk (train x (pcField r) (oField r)))) rfl he
      exact ⟨t, runRequests_cons hi (decode_train hop ▸ htrain (s := s.offer rest) he hx _ _) ht⟩
    · have hraise : (s.offer rest).silent.raise .opFault =
          { (s.offer rest).silent with err := true, errCode := 2 } := State.raise_of_ok _ he
      obtain ⟨t, ht⟩ := runRequests_faulted (s := (s.offer rest).silent.raise .opFault) (sch := sch)
        (by simp [hi]) (by rw [hraise]) rest
      have hx := exec_reserved (s := s.offer rest) he hbuilt
      have hrun := runRequests_cons hi (decode_reserved hop (sch := sch) ▸ hx) ht
      exact ⟨t, by simpa using hrun⟩

/-- A run of a GSHARE block. -/
theorem runRequests_gshare {g : Gshare} (hi : s.inst = .gshare g) (he : s.err = false) (reqs : List Request) :
    ∃ t, runRequests s reqs = .next (answersOf Gshare.predict Gshare.train g reqs, t) :=
  runRequests_eq_answersOf (sch := .gshare) (fun _ => rfl) exec_gsharePredict exec_gshareTrain hi he reqs

/-- The gshare a reset builds is sound, and a run from that reset is a run of it. -/
theorem runFromReset_gshare {c : Config} {hb : Word} (hs : c.scheme = some .gshare) (hhb : c.hb = some hb)
    (hc : c.wellFormed = true) (reqs : List Request) :
    ({ hb := hb, initGs := c.initGs, ghr := 0, pht := [] } : Gshare).Sound ∧
      ∃ t, runFromReset c reqs = .next (answersOf Gshare.predict Gshare.train
        { hb := hb, initGs := c.initGs, ghr := 0, pht := [] } reqs, t) := by
  obtain ⟨i, hi⟩ := exists_buildInstance_of_wellFormed hc
  have hg := hi
  simp only [buildInstance, hs] at hg
  obtain ⟨hb', e, -, rfl⟩ := buildGshare_eq_some.1 hg
  obtain rfl : hb = hb' := Option.some.inj (hhb.symm.trans e)
  refine ⟨buildInstance_sound hi, ?_⟩
  rw [runFromReset, State.applyReset_some _ hi]
  exact runRequests_gshare rfl rfl reqs

end Sys2Proof.Machine
end

section
/-! SUPPORT. The gshare kept as a sparse map (10_state.md R36), and the one that keeps all HB outcomes (10_state.md
R26, C6). -/

namespace Sys2Proof.Machine

theorem Gshare.index_of_sound {g : Gshare} (h : g.Sound) (pc : Word) :
    g.index pc = (pc.toNat ^^^ g.ghr) % 2 ^ g.hbe := by
  obtain ⟨-, hghr, -⟩ := h
  rw [Gshare.index, and_mask, histVal_of_lt hghr]

/-- The counters of a sound gshare after a training (43_gshare.md R153). -/
theorem Gshare.read_pht_train {g : Gshare} (h : g.Sound) (pc : Word) (o : BranchOutcome) (j : Nat) :
    Table.read (g.train pc o).pht g.initGs j =
      if j = g.index pc then ctrNext (Table.read g.pht g.initGs j) o else Table.read g.pht g.initGs j := by
  obtain ⟨-, -, hwf⟩ := h
  refine (read_trainCounter hwf (g.index pc) o j).trans ?_
  split
  next hj => rw [hj]
  next => rfl

/-- Looking up an index after the entries of one index were rewritten. -/
theorem lookup_map_ctrNext (l : List (Nat × Counter)) (i j : Nat) (o : BranchOutcome) :
    (l.map fun e => if e.1 = i then (i, ctrNext e.2 o) else e).lookup j =
      if j = i then (l.lookup j).map (ctrNext · o) else l.lookup j := by
  induction l with
  | nil => simp
  | cons e l ih =>
    obtain ⟨k, v⟩ := e
    by_cases hj : j = k
    · subst hj
      by_cases hi : j = i <;> simp [hi]
    · have hne : (j == k) = false := by simp [hj]
      by_cases hk : k = i
      · subst hk
        simp [List.lookup_cons, hne, ih]
      · simp [List.lookup_cons, hk, hne, ih]

/-- The counters of the sparse map after a training: R36's creation at INIT_GS does not show. -/
theorem SparseGshare.read_train (m : SparseGshare) (pc : Word) (o : BranchOutcome) (j : Nat) :
    (m.train pc o).read j = if j = m.index pc then ctrNext (m.read j) o else m.read j := by
  simp only [SparseGshare.read, SparseGshare.train, lookup_map_ctrNext]
  by_cases hj : j = m.index pc
  · subst hj
    cases hl : m.map.lookup (m.index pc) <;> simp [hl]
  · have hne : (j == m.index pc) = false := by simp [hj]
    cases hl : m.map.lookup (m.index pc) <;> simp [hj, hne, List.lookup_cons]

/-- The sparse map `m` holds what `g` holds. -/
structure SparseGshare.Represents (m : SparseGshare) (g : Gshare) : Prop where
  sound : g.Sound
  hb : m.hb = g.hb
  ghr : m.ghr = g.ghr
  read : ∀ i, m.read i = Table.read g.pht g.initGs i

theorem SparseGshare.Represents.index {m : SparseGshare} {g : Gshare} (h : m.Represents g) (pc : Word) :
    m.index pc = g.index pc := by
  rw [Gshare.index_of_sound h.sound, SparseGshare.index, h.ghr, h.hb, Gshare.hbe]

theorem SparseGshare.Represents.predict {m : SparseGshare} {g : Gshare} (h : m.Represents g) (pc : Word) :
    m.predict pc = g.predict pc := by
  rw [SparseGshare.predict, Gshare.predict, h.index, h.read]

theorem SparseGshare.Represents.train {m : SparseGshare} {g : Gshare} (h : m.Represents g) (pc : Word)
    (o : BranchOutcome) : (m.train pc o).Represents (g.train pc o) where
  sound := Gshare.train_sound h.sound pc o
  hb := h.hb
  ghr := by
    show histShift m.ghr o (min m.hb.toNat 32) = histShift g.ghr o g.hbe
    rw [h.ghr, h.hb, Gshare.hbe]
  read j := by
    rw [SparseGshare.read_train, h.index, h.read]
    exact (Gshare.read_pht_train h.sound pc o j).symm

/-- Settles O53: the map that reset leaves represents the gshare of the model, and every training keeps that. -/
theorem sparseMapGivesTheSameAnswers : Obligations.SparseMapGivesTheSameAnswers := by
  intro c hb reqs hs hhb hc
  obtain ⟨hsound, t, ht⟩ := runFromReset_gshare hs hhb hc reqs
  refine ⟨t, ht.trans ?_⟩
  rw [answersOf_eq_of_simulation (fun m g => SparseGshare.Represents m g) SparseGshare.Represents.predict
    SparseGshare.Represents.train ⟨hsound, rfl, rfl, fun _ => rfl⟩ reqs]

/-- The full-width history of `w` ends in the history of `g`, and the tables read alike. -/
structure WideGshare.Represents (w : WideGshare) (g : Gshare) : Prop where
  sound : g.Sound
  hb : w.hb = g.hb
  ghr : w.ghr % 2 ^ g.hbe = g.ghr
  read : ∀ i, w.pht i = Table.read g.pht g.initGs i

theorem WideGshare.Represents.index {w : WideGshare} {g : Gshare} (h : w.Represents g) (pc : Word) :
    w.index pc = g.index pc := by
  rw [Gshare.index_of_sound h.sound, WideGshare.index, histVal, and_mask, h.hb, ← Gshare.hbe, h.ghr]

theorem WideGshare.Represents.predict {w : WideGshare} {g : Gshare} (h : w.Represents g) (pc : Word) :
    w.predict pc = g.predict pc := by
  rw [WideGshare.predict, Gshare.predict, h.index, h.read]

/-- The newest bits of a shifted register are the shifted newest bits. -/
theorem histShift_mod {h w k : Nat} (o : BranchOutcome) (hk : k ≤ w) :
    histShift h o w % 2 ^ k = histShift (h % 2 ^ k) o k := by
  rw [histShift_eq, histShift_eq, Nat.mod_mod_of_dvd _ (Nat.pow_dvd_pow 2 hk)]
  exact Nat.ModEq.add_right _ ((Nat.mod_modEq h (2 ^ k)).symm.mul_left 2)

theorem WideGshare.Represents.train {w : WideGshare} {g : Gshare} (h : w.Represents g) (pc : Word)
    (o : BranchOutcome) : (w.train pc o).Represents (g.train pc o) where
  sound := Gshare.train_sound h.sound pc o
  hb := h.hb
  ghr := by
    show histShift w.ghr o w.hb.toNat % 2 ^ g.hbe = histShift g.ghr o g.hbe
    rw [h.hb, histShift_mod o (show g.hbe ≤ g.hb.toNat from Nat.min_le_left _ _), h.ghr]
  read j := by
    show (if j = w.index pc then ctrNext (w.pht j) o else w.pht j) = _
    rw [h.index, h.read]
    exact (Gshare.read_pht_train h.sound pc o j).symm

/-- Settles O54: the full-width history that reset leaves represents the gshare of the model, and every training
keeps that. -/
theorem fullWidthHistoryGivesTheSameAnswers : Obligations.FullWidthHistoryGivesTheSameAnswers := by
  intro c hb reqs hs hhb hc
  obtain ⟨hsound, t, ht⟩ := runFromReset_gshare hs hhb hc reqs
  refine ⟨t, ht.trans ?_⟩
  rw [answersOf_eq_of_simulation (fun w g => WideGshare.Represents w g) WideGshare.Represents.predict
    WideGshare.Represents.train ⟨hsound, rfl, Nat.zero_mod _, fun _ => rfl⟩ reqs]

end Sys2Proof.Machine
end

section
/-! SUPPORT. The other bit order of a history register: the same outcomes with their places reversed (10_state.md
R38, 92_eei_decisions.md D8). -/

namespace Sys2Proof.Machine

/-- The `w` low bits of `h` in reversed order. -/
def revBits (w h : Nat) : Nat := (BitVec.ofNat w h).reverse.toNat

theorem revBits_lt (w h : Nat) : revBits w h < 2 ^ w := BitVec.isLt _

@[simp] theorem testBit_revBits (w h i : Nat) :
    (revBits w h).testBit i = (decide (i < w) && h.testBit (w - 1 - i)) := by
  rw [revBits, BitVec.testBit_toNat, BitVec.getLsbD_reverse, BitVec.getMsbD_eq_getLsbD, BitVec.getLsbD_ofNat]
  by_cases hi : i < w
  · simp [hi, show w - 1 - i < w by omega]
  · simp [hi]

theorem revBits_zero (w : Nat) : revBits w 0 = 0 := Nat.eq_of_testBit_eq fun i => by simp

theorem revBits_revBits {w h : Nat} (hh : h < 2 ^ w) : revBits w (revBits w h) = h := by
  rw [revBits, revBits, BitVec.ofNat_toNat, BitVec.setWidth_eq, BitVec.reverse_reverse_eq, BitVec.toNat_ofNat,
    Nat.mod_eq_of_lt hh]

theorem revBits_inj {w a b : Nat} (ha : a < 2 ^ w) (hb : b < 2 ^ w) : revBits w a = revBits w b ↔ a = b :=
  ⟨fun h => by rw [← revBits_revBits ha, h, revBits_revBits hb], congrArg _⟩

/-- A register shifted down, bit by bit: the newest outcome at the high end, the others one place down. -/
theorem testBit_histShiftDown {h w : Nat} (hh : h < 2 ^ w) (o : BranchOutcome) (i : Nat) :
    (histShiftDown h o w).testBit i = (decide (i < w) && if i = w - 1 then o else h.testBit (i + 1)) := by
  cases w with
  | zero => simp [histShiftDown]
  | succ w =>
    have hlow : h / 2 < 2 ^ w := by rw [Nat.pow_succ] at hh; omega
    have hsplit : histShiftDown h o (w + 1) = 2 ^ w * o.toNat + h / 2 := by
      simp [histShiftDown, Nat.add_comm, Nat.mul_comm]
    rw [hsplit, Nat.testBit_two_pow_mul_add _ hlow, Nat.testBit_div_two]
    rcases lt_trichotomy i w with hi | rfl | hi
    · simp [hi, hi.ne, Nat.lt_succ_of_lt hi]
    · cases o <;> simp
    · obtain ⟨k, rfl⟩ := Nat.exists_eq_add_of_lt hi
      have ho : o.toNat.testBit (k + 1) = false := by cases o <;> simp [Nat.testBit_succ]
      simp [show ¬ w + k + 1 < w by omega, show w + k + 1 - w = k + 1 by omega, ho]

/-- Shifting in one bit order is shifting in the other. -/
theorem revBits_histShift (h : Nat) (o : BranchOutcome) (w : Nat) :
    revBits w (histShift h o w) = histShiftDown (revBits w h) o w := by
  refine Nat.eq_of_testBit_eq fun i => ?_
  rw [testBit_revBits, testBit_histShift, testBit_histShiftDown (revBits_lt w h), testBit_revBits]
  by_cases hi : i < w
  · by_cases hlast : i = w - 1
    · simp [hlast, show 0 < w by omega]
    · simp [hi, hlast, show w - 1 - i ≠ 0 by omega, show i + 1 < w by omega, show w - 1 - i < w by omega,
        show w - 1 - (i + 1) = w - 1 - i - 1 by omega]
  · simp [hi]

/-- The counters of `a` are those of `b`, each at the reversed index. -/
structure MirroredCounters (w : Nat) (init : Counter) (a b : Table Counter) : Prop where
  left_wf : Table.wf a init (2 ^ w) = true
  right_wf : Table.wf b init (2 ^ w) = true
  read : ∀ i, i < 2 ^ w → Table.read a init (revBits w i) = Table.read b init i

theorem MirroredCounters.nil (w : Nat) (init : Counter) : MirroredCounters w init [] [] :=
  ⟨Table.wf_nil _ _, Table.wf_nil _ _, fun _ _ => rfl⟩

theorem MirroredCounters.train {w i : Nat} {init : Counter} {a b : Table Counter} (h : MirroredCounters w init a b)
    (hi : i < 2 ^ w) (o : BranchOutcome) :
    MirroredCounters w init (trainCounter a init (revBits w i) o) (trainCounter b init i o) where
  left_wf := trainCounter_wf h.left_wf (revBits_lt w i) o
  right_wf := trainCounter_wf h.right_wf hi o
  read j hj := by
    rw [read_trainCounter h.left_wf, read_trainCounter h.right_wf, h.read i hi, h.read j hj]
    simp only [revBits_inj hj hi]

end Sys2Proof.Machine
end

section
/-! SUPPORT. A tournament with every history register in the other bit order (10_state.md R38). -/

namespace Sys2Proof.Machine

/-- `d` is `t` with the bits of every history register and pattern reversed, and the counters they index moved
along. -/
structure Tournament.Mirrors (d t : Tournament) : Prop where
  sound : t.Sound
  tg : d.tg = t.tg
  tl : d.tl = t.tl
  pi : d.pi = t.pi
  initTg : d.initTg = t.initTg
  initTl : d.initTl = t.initTl
  metaCtr : d.metaCtr = t.metaCtr
  ghr : d.ghr = revBits t.tg.toNat t.ghr
  gct : MirroredCounters t.tg.toNat t.initTg d.gct t.gct
  lht_wf : Table.wf d.lht 0 (2 ^ t.pi.toNat) = true
  lht : ∀ j, Table.read d.lht 0 j = revBits t.tl.toNat (Table.read t.lht 0 j)
  lct : MirroredCounters t.tl.toNat t.initTl d.lct t.lct

/-- The values of a reset mirror themselves. -/
theorem Tournament.mirrors_self {t : Tournament} (hw : t.tg.toNat ≤ 32 ∧ t.tl.toNat ≤ 32 ∧ t.pi.toNat ≤ 32)
    (hghr : t.ghr = 0) (hgct : t.gct = []) (hlht : t.lht = []) (hlct : t.lct = []) : t.Mirrors t where
  sound := by
    rw [Tournament.Sound, hghr, hgct, hlht, hlct]
    exact ⟨hw, Nat.two_pow_pos _, Table.wf_nil _ _, ⟨Table.wf_nil _ _, fun _ => Nat.two_pow_pos _⟩,
      Table.wf_nil _ _⟩
  tg := rfl
  tl := rfl
  pi := rfl
  initTg := rfl
  initTl := rfl
  metaCtr := rfl
  ghr := by rw [hghr, revBits_zero]
  gct := by rw [hgct]; exact MirroredCounters.nil _ _
  lht_wf := by rw [hlht]; exact Table.wf_nil _ _
  lht j := by rw [hlht, Table.read_nil, revBits_zero]
  lct := by rw [hlct]; exact MirroredCounters.nil _ _

theorem Tournament.globalIndex_of_sound {t : Tournament} (h : t.Sound) : t.globalIndex = t.ghr :=
  histVal_of_lt h.2.1

theorem Tournament.pattern_lt {t : Tournament} (h : t.Sound) (pc : Word) : t.pattern pc < 2 ^ t.tl.toNat := by
  obtain ⟨-, -, -, ⟨-, hpattern⟩, -⟩ := h
  exact hpattern _

section
variable {d t : Tournament} (h : d.Mirrors t) (pc : Word) (o : BranchOutcome)
include h

theorem Tournament.Mirrors.globalIndex : d.globalIndex = revBits t.tg.toNat t.globalIndex := by
  rw [Tournament.globalIndex_of_sound h.sound, Tournament.globalIndex, h.tg, h.ghr, histVal_of_lt (revBits_lt _ _)]

theorem Tournament.Mirrors.slot : d.slot pc = t.slot pc := by rw [Tournament.slot, Tournament.slot, h.pi]

theorem Tournament.Mirrors.pattern : d.pattern pc = revBits t.tl.toNat (t.pattern pc) := by
  rw [Tournament.pattern, h.slot, h.lht, Tournament.pattern]

theorem Tournament.Mirrors.globalVote : d.globalVote = t.globalVote := by
  rw [Tournament.globalVote, h.globalIndex, h.initTg, h.gct.read _ t.globalIndex_lt, Tournament.globalVote]

theorem Tournament.Mirrors.localVote : d.localVote pc = t.localVote pc := by
  rw [Tournament.localVote, h.pattern, h.initTl, h.lct.read _ (Tournament.pattern_lt h.sound pc),
    Tournament.localVote]

theorem Tournament.Mirrors.choice : d.choice pc = t.choice pc := by
  rw [Tournament.choice, Tournament.selector, h.metaCtr, h.globalVote, h.localVote]
  rfl

theorem Tournament.Mirrors.nextMeta : d.nextMeta pc o = t.nextMeta pc o := by
  simp only [Tournament.nextMeta, h.metaCtr, h.globalVote, h.localVote]

/-- Training in the two bit orders keeps the mirror. -/
theorem Tournament.Mirrors.train : (d.trainDown pc o).Mirrors (t.train pc o) where
  sound := Tournament.train_sound h.sound pc o
  tg := h.tg
  tl := h.tl
  pi := h.pi
  initTg := h.initTg
  initTl := h.initTl
  metaCtr := h.nextMeta pc o
  ghr := by
    show histShiftDown d.ghr o d.tg.toNat = revBits t.tg.toNat (histShift t.ghr o t.tg.toNat)
    rw [revBits_histShift, h.ghr, h.tg]
  gct := by
    show MirroredCounters _ _ (trainCounter d.gct d.initTg d.globalIndex o) _
    rw [h.globalIndex, h.initTg]
    exact h.gct.train t.globalIndex_lt o
  lht_wf := by
    show Table.wf (Table.write d.lht 0 (d.slot pc) _) 0 (2 ^ t.pi.toNat) = true
    rw [h.slot]
    exact Table.write_wf h.lht_wf (t.slot_lt pc)
  lht j := by
    obtain ⟨-, -, -, ⟨hwf, -⟩, -⟩ := h.sound
    show Table.read (Table.write d.lht 0 (d.slot pc) _) 0 j = revBits t.tl.toNat _
    rw [Table.read_write h.lht_wf, Tournament.read_lht_train hwf, h.slot, h.pattern, h.tl, h.lht, ← revBits_histShift]
    split <;> rfl
  lct := by
    show MirroredCounters _ _ (trainCounter d.lct d.initTl (d.pattern pc) o) _
    rw [h.pattern, h.initTl]
    exact h.lct.train (Tournament.pattern_lt h.sound pc) o

end

/-- Settles O55: what a reset leaves mirrors itself, and the two ways to train keep the mirror. -/
theorem tournamentAnswersDoNotShowTheBitOrder : Obligations.TournamentAnswersDoNotShowTheBitOrder := by
  intro t reqs htg htl hpi hghr hgct hlht hlct
  exact answersOf_eq_of_simulation (fun d t => Tournament.Mirrors d t) Tournament.Mirrors.choice
    Tournament.Mirrors.train (Tournament.mirrors_self ⟨htg, htl, hpi⟩ hghr hgct hlht hlct) reqs

end Sys2Proof.Machine
end

section
/-! SUPPORT. A perceptron with its history register in the other bit order (10_state.md R38). -/

namespace Sys2Proof.Machine

/-- The weights after a training (45_perceptron.md R205, R206). -/
theorem Perceptron.train_weight {p : Perceptron} {m i : Nat} (h : Table.wf p.w p.zeroRow m = true)
    (hi : i < p.h.toNat) (pc : Word) (o : BranchOutcome) (b : Nat) : (p.train pc o).weight b i =
      if p.trainCond pc o = true ∧ b = p.bucket pc then wrap32 (p.weight b i + pm o * p.slotSign i)
      else p.weight b i := by
  by_cases hc : p.trainCond pc o = true
  · have hw : (p.train pc o).w = Table.write p.w p.zeroRow (p.bucket pc) (p.trainedRow (p.bucket pc) o) := if_pos hc
    change sint32 ((Table.read (p.train pc o).w p.zeroRow b).getD i 0) = _
    rw [hw, Table.read_write h]
    by_cases hb : b = p.bucket pc
    · rw [if_pos hb, if_pos ⟨hc, hb⟩, Perceptron.trainedRow_getD _ _ _ hi, sint32_weightOf, hb]
    · rw [if_neg hb, if_neg (fun hcb => hb hcb.2)]
      rfl
  · have hw : (p.train pc o).w = p.w := if_neg hc
    change sint32 ((Table.read (p.train pc o).w p.zeroRow b).getD i 0) = _
    rw [hw, if_neg (fun hcb => hc hcb.1)]
    rfl

theorem Perceptron.train_w_wf {p : Perceptron} (h : Table.wf p.w p.zeroRow p.n.toNat = true) (hn : 1 ≤ p.n.toNat)
    (pc : Word) (o : BranchOutcome) : Table.wf (p.train pc o).w p.zeroRow p.n.toNat = true := by
  show Table.wf (if p.trainCond pc o = true then _ else _) _ _ = true
  split
  · exact Table.write_wf h (Nat.mod_lt _ hn)
  · exact h

/-- `d` is `p` with the slots of the history register, and the weights they pair with, in reversed order. -/
structure Perceptron.Mirrors (d p : Perceptron) : Prop where
  n_pos : 1 ≤ p.n.toNat
  h : d.h = p.h
  n : d.n = p.n
  theta : d.theta = p.theta
  percHash : d.percHash = p.percHash
  phr : d.phr = revBits p.h.toNat p.phr
  left_wf : Table.wf d.w d.zeroRow d.n.toNat = true
  right_wf : Table.wf p.w p.zeroRow p.n.toNat = true
  weight : ∀ b i, i < p.h.toNat → d.weight b i = p.weight b (p.h.toNat - 1 - i)

/-- The values of a reset mirror themselves. -/
theorem Perceptron.mirrors_self {p : Perceptron} (hn : 1 ≤ p.n.toNat) (hphr : p.phr = 0) (hw : p.w = []) :
    p.Mirrors p where
  n_pos := hn
  h := rfl
  n := rfl
  theta := rfl
  percHash := rfl
  phr := by rw [hphr, revBits_zero]
  left_wf := by rw [hw]; exact Table.wf_nil _ _
  right_wf := by rw [hw]; exact Table.wf_nil _ _
  weight b i _ := by rw [Perceptron.weight_of_nil hw, Perceptron.weight_of_nil hw]

section
variable {d p : Perceptron} (hm : d.Mirrors p) (pc : Word) (o : BranchOutcome)
include hm

theorem Perceptron.Mirrors.bucket : d.bucket pc = p.bucket pc := by
  rw [Perceptron.bucket, hm.percHash, hm.n, Perceptron.bucket]

theorem Perceptron.Mirrors.slotSign {i : Nat} (hi : i < p.h.toNat) :
    d.slotSign i = p.slotSign (p.h.toNat - 1 - i) := by
  rw [Perceptron.slotSign, hm.phr, testBit_revBits, decide_eq_true hi, Bool.true_and, Perceptron.slotSign]

/-- The score adds the same terms, last slot first. -/
theorem Perceptron.Mirrors.terms (b : Nat) : d.terms b = (p.terms b).reverse := by
  refine List.ext_getElem (by simp [Perceptron.terms, hm.h]) fun i h1 h2 => ?_
  have hi : i < p.h.toNat := by simpa [Perceptron.terms] using h2
  simp [Perceptron.terms, hm.slotSign hi, hm.weight b i hi]

theorem Perceptron.Mirrors.score : d.score pc = p.score pc := by
  rw [Perceptron.score, hm.bucket, hm.terms, List.sum_reverse, Perceptron.score]

theorem Perceptron.Mirrors.pred : d.pred pc = p.pred pc := by rw [Perceptron.pred, hm.score, Perceptron.pred]

theorem Perceptron.Mirrors.trainCond : d.trainCond pc o = p.trainCond pc o := by
  rw [Perceptron.trainCond, hm.score, hm.theta, Perceptron.trainCond]

/-- Training in the two bit orders keeps the mirror. -/
theorem Perceptron.Mirrors.train : (d.trainDown pc o).Mirrors (p.train pc o) where
  n_pos := hm.n_pos
  h := hm.h
  n := hm.n
  theta := hm.theta
  percHash := hm.percHash
  phr := by
    show histShiftDown d.phr o d.h.toNat = revBits p.h.toNat (histShift p.phr o p.h.toNat)
    rw [revBits_histShift, hm.phr, hm.h]
  left_wf := Perceptron.train_w_wf hm.left_wf (hm.n ▸ hm.n_pos) pc o
  right_wf := Perceptron.train_w_wf hm.right_wf hm.n_pos pc o
  weight b i (hi : i < p.h.toNat) := by
    show (d.train pc o).weight b i = (p.train pc o).weight b (p.h.toNat - 1 - i)
    rw [Perceptron.train_weight hm.left_wf (hm.h ▸ hi), Perceptron.train_weight hm.right_wf (by omega),
      hm.trainCond, hm.bucket, hm.weight b i hi, hm.slotSign hi]

end

/-- Settles O56: what a reset leaves mirrors itself, and the two ways to train keep the mirror. -/
theorem perceptronAnswersDoNotShowTheBitOrder : Obligations.PerceptronAnswersDoNotShowTheBitOrder := by
  intro p reqs hn hphr hw
  exact answersOf_eq_of_simulation (fun d p => Perceptron.Mirrors d p) Perceptron.Mirrors.pred
    Perceptron.Mirrors.train (Perceptron.mirrors_self hn hphr hw) reqs

end Sys2Proof.Machine
end

section
/-! SUPPORT. Which requests change the predictor (20_memory.md R60). -/

namespace Sys2Proof.Machine

/-- A word that decodes to a TRAIN, in whatever scheme, is a TRAIN word (30_encoding.md R71). -/
theorem isTrain_of_decode_eq_decodeTrain {sch sch' : Scheme} {req : Request} {pc : Word} {o : BranchOutcome}
    (h : decode sch req = decodeTrain sch' pc o) : isTrain req = true := by
  rcases opField_cases req with hop | hop | hop | hop
  · rw [decode_nop hop] at h; cases sch' <;> cases h
  · rw [decode_predict hop] at h; cases sch <;> cases sch' <;> cases h
  · simp [isTrain, hop]
  · rw [decode_reserved hop] at h; cases sch' <;> cases h

/-- Settles O46: a request that changes the instance runs as a TRAIN of the block's scheme, by its frame. -/
theorem onlyTrainAndResetChangeThePredictor : Obligations.OnlyTrainAndResetChangeThePredictor := by
  intro s t h hne
  obtain ⟨-, rfl⟩ | ⟨c, q, rest, hb, -⟩ | ⟨rest, hb, -⟩ |
    ⟨req, rest, hb, ⟨c, -, rfl⟩ | ⟨sch, -, hx⟩⟩ := step_next h
  · exact absurd rfl hne
  · exact .inr (.inl ⟨c, q, rest, hb⟩)
  · exact .inr (.inr ⟨rest, hb⟩)
  · exact absurd rfl hne
  · obtain ⟨-, -, -, -, hinst, -⟩ := requestFrame _ _ t hx
    obtain ⟨-, sch', pc, o, -, htrain⟩ := hinst hne
    exact .inl ⟨req, rest, hb, isTrain_of_decode_eq_decodeTrain htrain⟩

end Sys2Proof.Machine
end

section
/-! SUPPORT. Runs one after the other (20_memory.md R57, 70_reset_and_hazards.md R261): no request sees what is
offered after it, so a run of a list splits at every request. -/

namespace Sys2Proof.Machine

variable {s : State}

/-- The outcome with other events pending in its state. -/
def withPending (b : List PortEvent) : Result → Result
  | .next t => .next { t with inbox := b }
  | .fault f => .fault f
  | .refused r => .refused r

/-- Taking a request looks at what is pending only if the request does. -/
theorem State.take_withPending {run : State → Result} (b : List PortEvent)
    (hrun : ∀ s : State, run { s with inbox := b } = withPending b (run s)) :
    State.take { s with inbox := b } run = withPending b (s.take run) := by
  unfold State.take
  split_ifs
  · rfl
  · rfl
  · exact hrun s.silent

theorem State.raise_withPending (s : State) (f : FaultClass) (b : List PortEvent) :
    State.raise { s with inbox := b } f = { s.raise f with inbox := b } := by
  unfold State.raise
  split_ifs <;> rfl

/-- No request looks at what is pending. -/
theorem exec_withPending (i : Instr) (b : List PortEvent) :
    exec i { s with inbox := b } = withPending b (exec i s) := by
  cases i with
  | nop => exact State.take_withPending b fun _ => rfl
  | reserved =>
    simp only [exec, execReserved]
    exact State.take_withPending b fun s => congrArg Host.Outcome.next (s.raise_withPending .opFault b)
  | _ =>
    simp only [exec, execStaticPredict, execStaticTrain, execGsharePredict, execGshareTrain, execTournamentPredict,
      execTournamentTrain, execPerceptronPredict, execPerceptronTrain]
    exact State.take_withPending b fun ⟨inst, _, _, _, _, _⟩ => by cases inst <;> rfl

/-- A step on a request looks at nothing behind it. -/
theorem step_offer_cons (r : Request) (rest : List Request) :
    step (s.offer (r :: rest)) = withPending (rest.map .request) (step (s.offer [r])) := by
  rcases s.inst.cases_scheme with hi | ⟨c, hi⟩ | ⟨sch, hi⟩
  · rw [step_request_unbuilt (s := s.offer [r]) rfl hi, step_request_unbuilt (s := s.offer (r :: rest)) rfl hi]
    rfl
  · rw [step_request_invalid (s := s.offer [r]) rfl hi, step_request_invalid (s := s.offer (r :: rest)) rfl hi]
    rfl
  · rw [step_request_scheme (s := s.offer [r]) rfl hi, step_request_scheme (s := s.offer (r :: rest)) rfl hi]
    exact exec_withPending (s := s.offer []) (decode sch r) (rest.map .request)

/-- The outcome of a run: its answers and the state it leaves, or where it stopped. -/
abbrev RunResult := Host.Outcome (List BranchOutcome × State) Fault Refusal

/-- A run, and then a second one from the state it leaves. -/
def thenRun (x : RunResult) (run : State → RunResult) : RunResult :=
  match x with
  | .next (a, t) =>
    match run t with
    | .next (b, u) => .next (a ++ b, u)
    | .fault f => .fault f
    | .refused r => .refused r
  | .fault f => .fault f
  | .refused r => .refused r

theorem thenRun_nil (t : State) (run : State → RunResult) : thenRun (.next ([], t)) run = run t := by
  simp only [thenRun, List.nil_append]
  cases run t <;> rfl

theorem thenRun_assoc (x : RunResult) (f g : State → RunResult) :
    thenRun (thenRun x f) g = thenRun x fun t => thenRun (f t) g := by
  rcases x with ⟨a, t⟩ | _ | _
  · simp only [thenRun]
    rcases f t with ⟨b, u⟩ | _ | _
    · dsimp only
      rcases g u with ⟨c, v⟩ | _ | _ <;> simp
    · rfl
    · rfl
  · rfl
  · rfl

/-- A run is the run of its first request, then that of the others. -/
theorem runRequests_cons_eq_thenRun (r : Request) (rest : List Request) :
    runRequests s (r :: rest) = thenRun (runRequests s [r]) fun t => runRequests t rest := by
  simp only [runRequests, List.length_cons, List.length_nil, observe, step_offer_cons r rest]
  rcases step (s.offer [r]) with u | _ | _
  · simp only [withPending, thenRun, State.offer, List.append_nil]
    rfl
  · rfl
  · rfl

/-- A run of a list is the run of its first part, then that of its second. -/
theorem runRequests_append (first second : List Request) :
    runRequests s (first ++ second) = thenRun (runRequests s first) fun t => runRequests t second := by
  induction first generalizing s with
  | nil => exact (thenRun_nil (s.offer []) fun t => runRequests t second).symm
  | cons r rest ih =>
    rw [List.cons_append, runRequests_cons_eq_thenRun, runRequests_cons_eq_thenRun (rest := rest), thenRun_assoc]
    simp only [ih]

/-- Settles O50, by induction on the first part of the list. -/
theorem runsComposeInOrder : Obligations.RunsComposeInOrder :=
  fun _ first second => runRequests_append first second

theorem runRequests_append_of_next {first second : List Request} {a b : List BranchOutcome} {t u : State}
    (hfirst : runRequests s first = .next (a, t)) (hsecond : runRequests t second = .next (b, u)) :
    runRequests s (first ++ second) = .next (a ++ b, u) := by
  simp only [runRequests_append, hfirst, thenRun, hsecond]

end Sys2Proof.Machine
end

section
/-! SUPPORT. A PREDICT writes nothing (20_memory.md R55), in an instance of whatever scheme. -/

namespace Sys2Proof.Machine

variable {s : State}

/-- The answer of an instance to a PREDICT (the PREDICT column of 30_encoding.md R74); without a predictor none is
ever given, and `exec_decodePredict` says nothing of it. -/
def Instance.predict : Instance → Word → BranchOutcome
  | .unbuilt, _ => false
  | .invalid _, _ => false
  | .static, _ => true
  | .gshare g, pc => g.predict pc
  | .tournament t, pc => t.choice pc
  | .perceptron p, pc => p.pred pc

/-- The PREDICT of the block's own scheme. -/
theorem exec_decodePredict {sch : Scheme} (hi : s.inst.scheme = some sch) (he : s.err = false) (pc : Word) :
    exec (decodePredict sch pc) s = .next (s.respond (s.inst.predict pc)) := by
  cases hs : s.inst with
  | unbuilt | invalid c => rw [hs] at hi; cases hi
  | static => rw [hs] at hi; cases hi; exact exec_staticPredict he hs pc
  | gshare g => rw [hs] at hi; cases hi; exact exec_gsharePredict he hs pc
  | tournament t => rw [hs] at hi; cases hi; exact exec_tournamentPredict he hs pc
  | perceptron p => rw [hs] at hi; cases hi; exact exec_perceptronPredict he hs pc

/-- A PREDICT alone: its answer is the instance's, and only the ports change. -/
theorem runRequests_predict {r : Request} (hs : s.Ready) (hr : isPredict r = true) :
    runRequests s [r] = .next ([s.inst.predict (pcField r)],
      { s with inbox := [], resp := some (s.inst.predict (pcField r)) }) := by
  obtain ⟨hscheme, he⟩ := hs
  obtain ⟨sch, hi⟩ := Option.isSome_iff_exists.1 hscheme
  have hx := exec_decodePredict (s := s.offer []) hi he (pcField r)
  exact runRequests_cons hi (decode_predict (eq_of_beq hr) ▸ hx) rfl

/-- A NOP alone: no answer, and only the ports change. -/
theorem runRequests_nop {r : Request} (hs : s.Ready) (hr : opField r = 0) :
    runRequests s [r] = .next ([], { s with inbox := [], resp := none }) := by
  obtain ⟨hscheme, he⟩ := hs
  obtain ⟨sch, hi⟩ := Option.isSome_iff_exists.1 hscheme
  have hx := exec_nop (s := s.offer []) he (Instance.built_ne_unbuilt hscheme)
  exact runRequests_cons hi (decode_nop hr ▸ hx) rfl

/-- Requests with no TRAIN and no reserved one among them complete, and change the ports only. -/
theorem runRequests_without_train {reqs : List Request} (hs : s.Ready)
    (h : ∀ r ∈ reqs, isTrain r = false ∧ isReserved r = false) :
    ∃ answers p, runRequests s reqs = .next (answers, { s with inbox := [], resp := p }) := by
  induction reqs generalizing s with
  | nil => exact ⟨[], s.resp, rfl⟩
  | cons r rest ih =>
    obtain ⟨⟨htrain, hreserved⟩, hrest⟩ := List.forall_mem_cons.1 h
    have hone : ∃ a p, runRequests s [r] = .next (a, { s with inbox := [], resp := p }) := by
      rcases opField_cases r with hop | hop | hop | hop
      · exact ⟨_, _, runRequests_nop hs hop⟩
      · exact ⟨_, _, runRequests_predict hs (by simp [isPredict, hop])⟩
      · simp [isTrain, hop] at htrain
      · simp [isReserved, hop] at hreserved
    obtain ⟨a, p, ha⟩ := hone
    obtain ⟨b, q, hb⟩ := ih (s := { s with inbox := [], resp := p }) hs hrest
    exact ⟨a ++ b, q, runRequests_append_of_next ha hb⟩

/-- Settles O51: the second PREDICT meets the instance that the first one met. -/
theorem predictsWithoutTrainAgree : Obligations.PredictsWithoutTrainAgree := by
  intro s a b between hs ha hb hpc hbetween
  have hfirst := runRequests_predict hs ha
  obtain ⟨xs, p, hmiddle⟩ := runRequests_without_train
    (s := { s with inbox := [], resp := some (s.inst.predict (pcField a)) }) hs hbetween
  have hlast := runRequests_predict (s := { s with inbox := [], resp := p }) hs hb
  rw [← hpc] at hlast
  have hrun := runRequests_append_of_next hfirst (runRequests_append_of_next hmiddle hlast)
  exact ⟨_, xs, _, hrun, rfl, rfl, rfl⟩

end Sys2Proof.Machine
end

section
/-! SUPPORT. The fields of a request word as numbers, and the word they make (30_encoding.md R70, R81). -/

namespace Sys2Proof

theorem toNat_opField (req : Request) : (opField req).toNat = req.toNat / 2 ^ 33 := by
  simp only [opField, BitVec.extractLsb'_toNat, Nat.shiftRight_eq_div_pow]
  omega

theorem oField_eq (req : Request) : oField req = decide (req.toNat / 2 ^ 32 % 2 = 1) := by
  rw [oField, BitVec.getLsbD, Nat.testBit_eq_decide_div_mod_eq]

theorem pcField_eq (req : Request) : pcField req = BitVec.ofNat 32 req.toNat := by
  simp [pcField, BitVec.extractLsb']

/-- The operation code is the word divided by `2^33` (30_encoding.md R71). -/
theorem opField_eq_iff {req : Request} {op : BitVec 2} : opField req = op ↔ req.toNat / 2 ^ 33 = op.toNat := by
  rw [← BitVec.toNat_inj, toNat_opField]

@[simp] theorem opField_requestWord (op : BitVec 2) (o : BranchOutcome) (pc : Word) :
    opField (requestWord op o pc) = op := by
  have hlow : opField (requestWord op o pc) = (op ++ BitVec.ofBool o).extractLsb' 1 2 :=
    BitVec.extractLsb'_append_eq_of_le (by decide)
  rw [hlow]
  exact BitVec.extractLsb'_append_eq_left

@[simp] theorem oField_requestWord (op : BitVec 2) (o : BranchOutcome) (pc : Word) :
    oField (requestWord op o pc) = o := by
  rw [oField, requestWord, BitVec.getLsbD_append, if_neg (by decide), BitVec.getLsbD_append, if_pos (by decide)]
  cases o <;> rfl

@[simp] theorem pcField_requestWord (op : BitVec 2) (o : BranchOutcome) (pc : Word) :
    pcField (requestWord op o pc) = pc :=
  BitVec.extractLsb'_append_eq_right

/-- The word is the sum of its fields at their weights (30_encoding.md R81). -/
theorem toNat_eq_fields (req : Request) : req.toNat =
    (opField req).toNat * 2 ^ 33 + (oField req).toNat * 2 ^ 32 + (pcField req).toNat := by
  have ho : (oField req).toNat = req.toNat / 2 ^ 32 % 2 := Nat.toNat_testBit _ _
  rw [toNat_opField, ho, pcField_eq, BitVec.toNat_ofNat]
  omega

theorem toNat_requestWord (op : BitVec 2) (o : BranchOutcome) (pc : Word) :
    (requestWord op o pc).toNat = op.toNat * 2 ^ 33 + o.toNat * 2 ^ 32 + pc.toNat := by
  simpa only [opField_requestWord, oField_requestWord, pcField_requestWord] using
    toNat_eq_fields (requestWord op o pc)

end Sys2Proof
end

section
/-! SUPPORT. The decoder by operation code (30_encoding.md R71, R73, R74, R76), and the encoder against it. -/

namespace Sys2Proof.Machine

/-- The decoder on a word given by its fields (30_encoding.md R71, R74). -/
theorem decode_requestWord (sch : Scheme) (op : BitVec 2) (o : BranchOutcome) (pc : Word) :
    decode sch (requestWord op o pc) =
      if op = 0 then .nop else if op = 1 then decodePredict sch pc
      else if op = 2 then decodeTrain sch pc o else .reserved := by
  have hop : opField (requestWord op o pc) = op := opField_requestWord op o pc
  obtain rfl | rfl | rfl | rfl := hop ▸ opField_cases (requestWord op o pc)
  · exact decode_nop hop
  · rw [decode_predict hop, pcField_requestWord]; rfl
  · rw [decode_train hop, pcField_requestWord, oField_requestWord]; rfl
  · exact decode_reserved hop

/-- Settles O1: the encoder writes each request's own operation code, and the scheme a request belongs to selects
its rule. -/
theorem decodeEncodeRoundTrip : Obligations.DecodeEncodeRoundTrip := by
  intro sch i h
  cases i with
  | nop | reserved => exact decode_requestWord sch _ false 0
  | staticPredict pc | gsharePredict pc | tournamentPredict pc | perceptronPredict pc =>
    obtain h | h := Instr.scheme_of_wellFormed h <;> cases h
    exact decode_requestWord _ 1 false pc
  | staticTrain pc o | gshareTrain pc o | tournamentTrain pc o | perceptronTrain pc o =>
    obtain h | h := Instr.scheme_of_wellFormed h <;> cases h
    exact decode_requestWord _ 2 o pc

/-- Settles O2: the quotient of the word is its operation code, and the operands are its other two fields. -/
theorem operationCodeAloneSelectsTheOperation : Obligations.OperationCodeAloneSelectsTheOperation := by
  intro sch req
  refine ⟨fun h => decode_nop (opField_eq_iff.2 h), fun h => ?_, fun h => ?_,
    fun h => decode_reserved (opField_eq_iff.2 h), by omega⟩
  · rw [decode_predict (opField_eq_iff.2 h), pcField_eq]
    cases sch <;> rfl
  · rw [decode_train (opField_eq_iff.2 h), pcField_eq, oField_eq]
    cases sch <;> rfl

/-- Settles O3: a PREDICT reads the low 32 bits only, a NOP and a reserved word none. -/
theorem dontCareBitsAreIgnored : Obligations.DontCareBitsAreIgnored := by
  intro sch a b
  refine ⟨fun ha hb hpc => ?_, fun ha hb => ?_, fun ha hb => ?_⟩
  · have hfield : pcField a = pcField b := by
      rw [pcField_eq, pcField_eq]; exact BitVec.eq_of_toNat_eq (by simpa using hpc)
    rw [decode_predict (opField_eq_iff.2 ha), decode_predict (opField_eq_iff.2 hb), hfield]
  · rw [decode_nop (opField_eq_iff.2 ha), decode_nop (opField_eq_iff.2 hb)]
  · rw [decode_reserved (opField_eq_iff.2 ha), decode_reserved (opField_eq_iff.2 hb)]

/-- Only the operation code 3 decodes to the reserved request (30_encoding.md R76). -/
theorem decode_eq_reserved_iff {sch : Scheme} {req : Request} : decode sch req = .reserved ↔ opField req = 3 := by
  refine ⟨fun h => ?_, decode_reserved⟩
  rcases opField_cases req with hop | hop | hop | hop
  · rw [decode_nop hop] at h; cases h
  · rw [decode_predict hop] at h; cases sch <;> cases h
  · rw [decode_train hop] at h; cases sch <;> cases h
  · exact hop

/-- The word of a PREDICT (30_encoding.md R81). -/
theorem toNat_predictWord (pc : Word) : (requestWord 1 false pc).toNat = 0x200000000 + pc.toNat :=
  toNat_requestWord 1 false pc

/-- The word of a TRAIN (30_encoding.md R81). -/
theorem toNat_trainWord (pc : Word) (o : BranchOutcome) :
    (requestWord 2 o pc).toNat = (if o then 0x500000000 else 0x400000000) + pc.toNat := by
  rw [toNat_requestWord]
  cases o <;> rfl

/-- Settles O4: the fields at their weights, for any word and for those the encoder writes; the reserved code is
the last quarter of the words. -/
theorem wordArithmetic : Obligations.WordArithmetic := by
  refine ⟨toNat_eq_fields, fun pc => ?_, fun pc o => ?_, fun sch req => ?_⟩
  · have h := toNat_predictWord pc
    exact ⟨h, h, h, h⟩
  · have h := toNat_trainWord pc o
    exact ⟨h, h, h, h⟩
  · rw [decode_eq_reserved_iff, opField_eq_iff]
    show req.toNat / 2 ^ 33 = 3 ↔ _
    omega

/-- Settles O5: thirteen closed words, each decoded by evaluation. -/
theorem tableWordsDecode : Obligations.TableWordsDecode := by
  unfold Obligations.TableWordsDecode
  decide

end Sys2Proof.Machine
end

section
/-! SUPPORT. A request at the block: NOP, the word offered by the host, and the ports (30_encoding.md R75, R78). -/

namespace Sys2Proof.Machine

/-- Settles O11: a ready block runs NOP on silent ports, a faulted one refuses it to the same effect. -/
theorem nopSkips : Obligations.NopSkips :=
  ⟨fun _ _ h => decode_nop h, fun _ =>
    ⟨fun ⟨hbuilt, he⟩ => exec_nop he (Instance.built_ne_unbuilt hbuilt),
      fun hbuilt he => exec_faulted hbuilt he .nop⟩⟩

/-- The host can offer any number of at most 35 bits, in a field at least that wide (log 4). -/
theorem State.withFetchWord_of_lt {s : State} {nbits w : Nat} (hn : 35 ≤ nbits) (hw : w < 2 ^ 35) :
    s.withFetchWord nbits w = { s with inbox := .request (BitVec.ofNat 35 w) :: s.inbox } := by
  have hmod : w % 2 ^ nbits = w := Nat.mod_eq_of_lt (hw.trans_le (Nat.pow_le_pow_right (by decide) hn))
  simp only [State.withFetchWord, offerWord, hmod, if_pos hw]

/-- Settles O47: the word of a well-formed instruction decodes to it, and the word offered is the one taken. -/
theorem stepRunsTheDecodedRequest : Obligations.StepRunsTheDecodedRequest := by
  intro s sch hi
  refine ⟨fun req rest hb => step_request_scheme hb hi, fun i rest hwf hb => ?_, fun w hw => ?_⟩
  · rw [step_request_scheme hb hi, decodeEncodeRoundTrip sch i hwf]
  · rw [State.withFetchWord_of_lt (by decide) hw]
    exact step_request_scheme (s := { s with inbox := .request (BitVec.ofNat 35 w) :: s.inbox }) rfl hi

/-- With `rst` the ports are a reset, and the request on them only goes with it (70_reset_and_hazards.md R253). -/
theorem portEvents_rst {c : Config} {p : PortIn} (h : p.rst = true) :
    portEvents c p = [.reset c (portOffer p)] := by
  simp [portEvents, h]

theorem portEvents_idle {c : Config} {p : PortIn} (h : p.rst = false) (hv : p.reqValid = false) :
    portEvents c p = [] := by
  simp [portEvents, portOffer, h, hv]

theorem portEvents_request {c : Config} {p : PortIn} (h : p.rst = false) (hv : p.reqValid = true) :
    portEvents c p = [.request (portRequest p)] := by
  simp [portEvents, portOffer, h, hv]

/-- The ports carry the fields of the word (30_encoding.md R78). -/
theorem portRequest_eq (p : PortIn) : portRequest p = requestWord p.reqOp p.reqO p.reqPc := rfl

/-- Settles O49: what the ports carry is the one event of the step. -/
theorem portStepTakesWhatIsOffered : Obligations.PortStepTakesWhatIsOffered := by
  intro s c p
  refine ⟨fun h => step_reset_event (portEvents_rst h), fun h hv => ?_,
    fun h hv hi => step_request_unbuilt (portEvents_request h hv) hi,
    fun h hv c' hi => step_request_invalid (portEvents_request h hv) hi, fun h hv sch hi => ?_⟩
  · rw [portStep, step_nil (portEvents_idle h hv), portEvents_idle h hv]
    rfl
  · rw [← decode_requestWord]
    exact step_request_scheme (portEvents_request h hv) hi

end Sys2Proof.Machine
end

section
/-! SUPPORT. The saturating counter as arithmetic on its 2-bit code (40_counter.md R101 to R104). -/

namespace Sys2Proof.Machine

/-- Every 2-bit code is the code of the state it names (40_counter.md R101). -/
theorem counterBits_counterOfBits (b : BitVec 2) : counterBits (counterOfBits b) = b := by
  revert b
  decide

/-- Taken adds one to the code and stops at 3 (40_counter.md R102). -/
theorem toNat_ctrNext_true (c : Counter) :
    (counterBits (ctrNext c true)).toNat = min ((counterBits c).toNat + 1) 3 := by
  cases c <;> rfl

/-- NotTaken subtracts one from the code and stops at 0 (40_counter.md R102). -/
theorem toNat_ctrNext_false (c : Counter) :
    (counterBits (ctrNext c false)).toNat = (counterBits c).toNat - 1 := by
  cases c <;> rfl

/-- The prediction is bit 1 of the code (40_counter.md R103). -/
theorem ctrPred_eq_getLsbD (c : Counter) : ctrPred c = (counterBits c).getLsbD 1 := by
  cases c <;> rfl

/-- The strong states are the ends of the code's range (40_counter.md R101). -/
theorem eq_st_iff {c : Counter} : c = .st ↔ 3 ≤ (counterBits c).toNat := by
  cases c <;> decide

theorem eq_snt_iff {c : Counter} : c = .snt ↔ (counterBits c).toNat = 0 := by
  cases c <;> decide

/-- Three Takens climb the whole range of the code from any state (40_counter.md R104 (c)). -/
theorem ctrNext_true_three (c : Counter) : ctrNext (ctrNext (ctrNext c true) true) true = .st := by
  rw [eq_st_iff]
  simp only [toNat_ctrNext_true]
  omega

/-- Three NotTakens descend the whole range of the code, which ends at 3 (40_counter.md R104 (c)). -/
theorem ctrNext_false_three (c : Counter) : ctrNext (ctrNext (ctrNext c false) false) false = .snt := by
  have hcode : (counterBits c).toNat < 2 ^ 2 := (counterBits c).isLt
  rw [eq_snt_iff]
  simp only [toNat_ctrNext_false]
  omega

/-- One outcome sets the prediction of a weak state, and a strong state keeps the prediction of its own side
(40_counter.md R104 (d)). -/
theorem ctrPred_ctrNext_of_weak_or_agreeing {c : Counter} {o : BranchOutcome}
    (h : c = .wnt ∨ c = .wt ∨ (c = .st ∧ o = true) ∨ (c = .snt ∧ o = false)) : ctrPred (ctrNext c o) = o := by
  rcases h with rfl | rfl | ⟨rfl, rfl⟩ | ⟨rfl, rfl⟩
  · cases o <;> rfl
  · cases o <;> rfl
  · rfl
  · rfl

/-- Settles O6: the codes by evaluation, the transition by its arithmetic for each outcome. -/
theorem counterIsSaturatingArithmetic : Obligations.CounterIsSaturatingArithmetic := by
  refine ⟨⟨rfl, rfl, rfl, rfl, counterBits_counterOfBits⟩, fun c o => ?_, ctrPred_eq_getLsbD⟩
  cases o with
  | false => exact toNat_ctrNext_false c
  | true => exact toNat_ctrNext_true c

/-- Settles O7: the laws about named states by evaluation, those about every state by the code's arithmetic and the
prediction after one outcome. -/
theorem counterLaws : Obligations.CounterLaws :=
  ⟨⟨rfl, rfl⟩, rfl, fun c => ⟨ctrNext_true_three c, ctrNext_false_three c⟩,
    fun _ _ => ctrPred_ctrNext_of_weak_or_agreeing, ⟨⟨rfl, rfl⟩, rfl, rfl⟩,
    fun c => ⟨toNat_ctrNext_true c, toNat_ctrNext_false c⟩⟩

end Sys2Proof.Machine
end

section
/-! SUPPORT. What the history operations say of the outcomes: the bits of HIST_VAL, the newest outcomes in a
register that is only shifted, and the pcs that share a local history (41_history.md R120 to R124). -/

namespace Sys2Proof.Machine

/-- The value keeps the bits below its width (41_history.md R122). -/
theorem testBit_histVal (h k i : Nat) : (histVal h k).testBit i = (decide (i < k) && h.testBit i) := by
  rw [histVal, and_mask, Nat.testBit_mod_two_pow]

/-- Settles O8: both operations bit by bit, and the bound of a masked value. -/
theorem historyShiftsAtBitZero : Obligations.HistoryShiftsAtBitZero :=
  ⟨testBit_histShift, testBit_histVal, histVal_lt⟩

/-- A register of `w` bits that held `h`, after a sequence of outcomes, the oldest first (41_history.md R120). -/
def shiftedHistory (w h : Nat) (os : List BranchOutcome) : Nat := os.foldl (histShift · · w) h

theorem shiftedHistory_concat (w h : Nat) (os : List BranchOutcome) (o : BranchOutcome) :
    shiftedHistory w h (os ++ [o]) = histShift (shiftedHistory w h os) o w := by
  simp [shiftedHistory]

/-- The newest outcome enters at bit 0 and moves the older ones up by one, so from an empty register bit `i` is
the outcome at place `i` counted from the newest. -/
theorem testBit_shiftedHistory_zero (w : Nat) (os : List BranchOutcome) (i : Nat) :
    (shiftedHistory w 0 os).testBit i = (decide (i < w) && os.reverse.getD i false) := by
  induction os using List.reverseRecOn generalizing i with
  | nil => simp [shiftedHistory]
  | append_singleton os o ih =>
    rw [shiftedHistory_concat, testBit_histShift]
    cases i with
    | zero => simp
    | succ i =>
      have hlt : i + 1 < w → i < w := Nat.lt_of_succ_lt
      by_cases hi : i + 1 < w <;> simp [ih, hi, hlt]

/-- GHR_gs is only shifted, by every training (43_gshare.md R153). -/
theorem Gshare.ghr_after (g : Gshare) (ts : List Training) :
    (g.after ts).ghr = shiftedHistory g.hbe g.ghr (ts.map Prod.snd) := by
  induction ts generalizing g with
  | nil => rfl
  | cons x ts ih => exact ih (g.train x.1 x.2)

/-- GHR_t is only shifted, by every training (44_tournament.md R176). -/
theorem Tournament.ghr_after (t : Tournament) (ts : List Training) :
    (t.after ts).ghr = shiftedHistory t.tg.toNat t.ghr (ts.map Prod.snd) := by
  induction ts generalizing t with
  | nil => rfl
  | cons x ts ih => exact ih (t.train x.1 x.2)

/-- PHR is only shifted, by every training, whether or not the weights change (45_perceptron.md R206). -/
theorem Perceptron.phr_after (p : Perceptron) (ts : List Training) :
    (p.after ts).phr = shiftedHistory p.h.toNat p.phr (ts.map Prod.snd) := by
  induction ts generalizing p with
  | nil => rfl
  | cons x ts ih => exact ih (p.train x.1 x.2)

/-- Settles O9: each register is the one shifted by the outcomes, whose bits are known from 0. -/
theorem globalHistoryHoldsNewestOutcomes : Obligations.GlobalHistoryHoldsNewestOutcomes := by
  intro ts i
  refine ⟨fun g hg => ?_, fun t ht => ?_, fun p hp => ?_⟩
  · rw [g.ghr_after, hg, testBit_shiftedHistory_zero, Gshare.hbe]
  · rw [t.ghr_after, ht, testBit_shiftedHistory_zero]
  · rw [p.phr_after, hp, testBit_shiftedHistory_zero]

section
variable {t : Tournament} {pc pc' : Word}

theorem Tournament.pattern_eq_of_slot_eq (h : t.slot pc' = t.slot pc) : t.pattern pc' = t.pattern pc := by
  rw [Tournament.pattern, Tournament.pattern, h]

theorem Tournament.localVote_eq_of_slot_eq (h : t.slot pc' = t.slot pc) : t.localVote pc' = t.localVote pc := by
  rw [Tournament.localVote, Tournament.localVote, Tournament.pattern_eq_of_slot_eq h]

/-- PREDICT uses its pc only for the local vote (44_tournament.md R173). -/
theorem Tournament.choice_eq_of_slot_eq (h : t.slot pc' = t.slot pc) : t.choice pc' = t.choice pc := by
  rw [Tournament.choice, Tournament.choice, Tournament.localVote_eq_of_slot_eq h]

theorem Tournament.nextMeta_eq_of_slot_eq (h : t.slot pc' = t.slot pc) (o : BranchOutcome) :
    t.nextMeta pc' o = t.nextMeta pc o := by
  rw [Tournament.nextMeta, Tournament.nextMeta, Tournament.localVote_eq_of_slot_eq h]

/-- TRAIN uses its pc only for META, the local counter and the local history (44_tournament.md R176). -/
theorem Tournament.train_eq_of_slot_eq (h : t.slot pc' = t.slot pc) (o : BranchOutcome) :
    t.train pc' o = t.train pc o := by
  rw [Tournament.train, Tournament.train, Tournament.nextMeta_eq_of_slot_eq h, Tournament.pattern_eq_of_slot_eq h, h]

end

/-- Settles O28: the slot is the low PI bits of the pc, and nothing else of the pc is used. -/
theorem tournamentAliasesShareASlot : Obligations.TournamentAliasesShareASlot := by
  intro t pc pc' o hlow
  have hslot : t.slot pc' = t.slot pc := by rw [t.slot_eq, t.slot_eq, hlow]
  exact ⟨Tournament.choice_eq_of_slot_eq hslot, Tournament.train_eq_of_slot_eq hslot o⟩

end Sys2Proof.Machine
end

section
/-! SUPPORT. The static predictor, which has no state (42_static.md R140, R141). -/

namespace Sys2Proof.Machine

theorem Instance.ne_unbuilt_of_static {i : Instance} (h : i = .static) : i ≠ .unbuilt :=
  built_ne_unbuilt (h ▸ rfl)

/-- Settles O13: the operation code selects PREDICT, the scheme its static rule, and that rule answers Taken on
otherwise silent ports. -/
theorem staticPredictsTaken : Obligations.StaticPredictsTaken :=
  ⟨fun _ hop => decode_predict hop, fun _ pc hi =>
    ⟨fun he => exec_staticPredict he hi pc,
      fun he => exec_faulted (Instance.ne_unbuilt_of_static hi) he (.staticPredict pc)⟩⟩

/-- Settles O14: the operation code selects TRAIN, the scheme its static rule, and that rule leaves the ports
silent. -/
theorem staticTrainSkips : Obligations.StaticTrainSkips :=
  ⟨fun _ hop => decode_train hop, fun _ pc o hi =>
    ⟨fun he => exec_staticTrain he hi pc o,
      fun he => exec_faulted (Instance.ne_unbuilt_of_static hi) he (.staticTrain pc o)⟩⟩

end Sys2Proof.Machine
end

section
/-! SUPPORT. The gshare index, the counters a sequence of trainings leaves alone, and the two requests
(43_gshare.md). -/

namespace Sys2Proof.Machine

theorem Instance.ne_unbuilt_of_gshare {i : Instance} {g : Gshare} (h : i = .gshare g) : i ≠ .unbuilt :=
  built_ne_unbuilt (h ▸ rfl)

/-- The index as arithmetic (43_gshare.md R150). -/
theorem Gshare.index_eq_mod (g : Gshare) (pc : Word) :
    g.index pc = (pc.toNat ^^^ (g.ghr % 2 ^ g.hbe)) % 2 ^ g.hbe := by
  rw [Gshare.index, histVal, and_mask, and_mask]

/-- The index is the exclusive or of the low `HBe` bits of the pc and of the history (43_gshare.md R151). -/
theorem Gshare.index_eq_xor (g : Gshare) (pc : Word) :
    g.index pc = (pc.toNat % 2 ^ g.hbe) ^^^ (g.ghr % 2 ^ g.hbe) := by
  rw [g.index_eq_mod, Nat.xor_mod_two_pow, Nat.mod_mod]

theorem Gshare.hbe_of_le {g : Gshare} (h : g.hb.toNat ≤ 32) : g.hbe = g.hb.toNat := Nat.min_eq_left h

theorem Gshare.hbe_of_ge {g : Gshare} (h : 32 ≤ g.hb.toNat) : g.hbe = 32 := Nat.min_eq_right h

/-- Settles O27: each case is the exclusive or of the low `HBe` bits, with `HBe` = HB up to 32 and 32 from there. -/
theorem gshareIndexCorners : Obligations.GshareIndexCorners := by
  intro g pc
  refine ⟨fun hzero => ?_, fun g' pc' hle hhb hpc hghr => ?_, fun hge hghr => ?_⟩
  · have hlt := g.index_lt pc
    rw [Gshare.hbe_of_le (by omega), hzero] at hlt
    omega
  · have hhbe : g.hbe = g.hb.toNat := Gshare.hbe_of_le (by omega)
    have hhbe' : g'.hbe = g.hb.toNat := by rw [Gshare.hbe, hhb, ← Gshare.hbe, hhbe]
    rw [g'.index_eq_xor, g.index_eq_xor, hhbe, hhbe', hpc, hghr]
  · rw [g.index_eq_xor, Gshare.hbe_of_ge hge, Nat.mod_eq_of_lt pc.isLt, Nat.mod_eq_of_lt hghr]

/-- A counter at INIT_GS, which is SNT or WNT, predicts NotTaken (43_gshare.md R152). -/
theorem Gshare.predict_of_read_eq_initGs {g : Gshare} (h : g.Sound) {pc : Word}
    (hr : Table.read g.pht g.initGs (g.index pc) = g.initGs) : g.predict pc = false := by
  obtain ⟨hinit, -, -⟩ := h
  rw [Gshare.predict, hr, hinit]

theorem Gshare.after_initGs (g : Gshare) (ts : List Training) : (g.after ts).initGs = g.initGs := by
  induction ts generalizing g with
  | nil => rfl
  | cons x ts ih => exact ih (g.train x.1 x.2)

theorem Gshare.after_sound {g : Gshare} (h : g.Sound) (ts : List Training) : (g.after ts).Sound := by
  induction ts generalizing g with
  | nil => exact h
  | cons x ts ih => exact ih (Gshare.train_sound h x.1 x.2)

/-- A counter stays where no training uses, at its time, the counter's index (43_gshare.md R153). -/
theorem Gshare.read_pht_after_of_unused {g : Gshare} (h : g.Sound) {ts : List Training} {j : Nat}
    (hunused : ∀ k x, ts[k]? = some x → (g.after (ts.take k)).index x.1 ≠ j) :
    Table.read (g.after ts).pht g.initGs j = Table.read g.pht g.initGs j := by
  induction ts generalizing g with
  | nil => rfl
  | cons x ts ih =>
    have hfirst : j ≠ g.index x.1 := (hunused 0 x rfl).symm
    calc Table.read ((g.train x.1 x.2).after ts).pht g.initGs j
      _ = Table.read (g.train x.1 x.2).pht g.initGs j :=
        ih (Gshare.train_sound h x.1 x.2) fun k => hunused (k + 1)
      _ = Table.read g.pht g.initGs j := by rw [Gshare.read_pht_train h, if_neg hfirst]

/-- Settles O29: the counter there is the untrained one. -/
theorem unseenIndexPredictsNotTaken : Obligations.UnseenIndexPredictsNotTaken := by
  intro g ts pc hsound hempty hunused
  refine Gshare.predict_of_read_eq_initGs (Gshare.after_sound hsound ts) ?_
  rw [Gshare.after_initGs, Gshare.read_pht_after_of_unused hsound, hempty, Table.read_nil]
  intro k x hx
  obtain ⟨hk, -⟩ := List.getElem?_eq_some_iff.1 hx
  exact hunused k hk x hx

/-- Settles O15: the operation code selects PREDICT, the scheme its gshare rule, and that rule answers the
prediction of the indexed counter on otherwise silent ports. -/
theorem gsharePredictReadsTheIndexedCounter : Obligations.GsharePredictReadsTheIndexedCounter := by
  refine ⟨fun _ hop => decode_predict hop, fun s g pc hi => ?_⟩
  have hindex := g.index_eq_mod pc
  refine ⟨fun he => ?_, fun hsound hr he => ?_,
    fun he => exec_faulted (Instance.ne_unbuilt_of_gshare hi) he (.gsharePredict pc)⟩
  · rw [exec_gsharePredict he hi, Gshare.predict, hindex]
    rfl
  · rw [exec_gsharePredict he hi, Gshare.predict_of_read_eq_initGs hsound (hindex ▸ hr)]
    rfl

/-- Settles O16: the operation code selects TRAIN, the scheme its gshare rule, and that rule leaves the trained
predictor, whose history is the shift as arithmetic and whose table differs at the indexed counter only. -/
theorem gshareTrainMovesOneCounterAndShifts : Obligations.GshareTrainMovesOneCounterAndShifts := by
  refine ⟨fun _ hop => decode_train hop, fun s g pc o hi hsound => ?_⟩
  have hindex := g.index_eq_mod pc
  obtain ⟨-, -, hwf⟩ := hsound
  refine ⟨fun he => ⟨g.train pc o, exec_gshareTrain he hi pc o, rfl, rfl, ?_, fun j => ?_⟩,
    fun he => exec_faulted (Instance.ne_unbuilt_of_gshare hi) he (.gshareTrain pc o)⟩
  · refine (histShift_eq g.ghr o g.hbe).trans ?_
    cases o <;> rfl
  · exact hindex ▸ read_trainCounter hwf (g.index pc) o j

end Sys2Proof.Machine
end


section
/-! SUPPORT. The votes, the selector META and the two requests of the tournament (44_tournament.md). -/

namespace Sys2Proof.Machine

theorem Instance.ne_unbuilt_of_tournament {i : Instance} {t : Tournament} (h : i = .tournament t) : i ≠ .unbuilt :=
  built_ne_unbuilt (h ▸ rfl)

/-- The global index as arithmetic (44_tournament.md R170). -/
theorem Tournament.globalIndex_eq_mod (t : Tournament) : t.globalIndex = t.ghr % 2 ^ t.tg.toNat := and_mask _ _

/-- The local index as arithmetic (44_tournament.md R171, R172). -/
theorem Tournament.pattern_eq_read_mod (t : Tournament) (pc : Word) :
    t.pattern pc = Table.read t.lht 0 (pc.toNat % 2 ^ t.pi.toNat) := by
  rw [Tournament.pattern, t.slot_eq]

/-- The shift with the new outcome as a number (41_history.md R120). -/
theorem histShift_eq_ite (h : Nat) (o : BranchOutcome) (w : Nat) :
    histShift h o w = (2 * h + (if o then 1 else 0)) % 2 ^ w := by
  refine (histShift_eq h o w).trans ?_
  cases o <;> rfl

/-- The code of the Taken side is 2 or 3 (40_counter.md R103). -/
theorem ctrPred_eq_true_iff {c : Counter} : ctrPred c = true ↔ 2 ≤ (counterBits c).toNat := by
  cases c <;> decide

section
variable {t : Tournament} {pc : Word} {o : BranchOutcome}

/-- META on the Taken side selects the local vote (44_tournament.md R173). -/
theorem Tournament.choice_of_meta_taken (h : ctrPred t.metaCtr = true) : t.choice pc = t.localVote pc := if_pos h

theorem Tournament.nextMeta_of_votes_agree (h : t.globalVote = t.localVote pc) : t.nextMeta pc o = t.metaCtr :=
  if_neg (not_not_intro h)

/-- META moves towards Taken where the local vote alone is right (44_tournament.md R174). -/
theorem Tournament.nextMeta_of_local_right (h : t.globalVote ≠ t.localVote pc) (ho : t.localVote pc = o) :
    t.nextMeta pc o = ctrNext t.metaCtr true := by
  rw [Tournament.nextMeta, if_pos h, ho, beq_self_eq_true]

/-- META moves towards NotTaken where the global vote alone is right (44_tournament.md R174). -/
theorem Tournament.nextMeta_of_global_right (h : t.globalVote ≠ t.localVote pc) (ho : t.globalVote = o) :
    t.nextMeta pc o = ctrNext t.metaCtr false := by
  rw [Tournament.nextMeta, if_pos h, beq_false_of_ne (ho ▸ h.symm)]

end

/-- Settles O17: the operation code selects PREDICT, the scheme its tournament rule, and that rule answers the
choice, whose indices are arithmetic, on otherwise silent ports. -/
theorem tournamentPredictChoosesAVote : Obligations.TournamentPredictChoosesAVote := by
  refine ⟨fun _ hop => decode_predict hop, fun s t pc hi => ⟨fun he => ?_,
    fun he => exec_faulted (Instance.ne_unbuilt_of_tournament hi) he (.tournamentPredict pc)⟩⟩
  rw [exec_tournamentPredict he hi, Tournament.choice, Tournament.selector, Tournament.globalVote,
    Tournament.localVote, t.globalIndex_eq_mod, t.pattern_eq_read_mod]
  rfl

/-- Settles O18: the operation code selects TRAIN, the scheme its tournament rule, and that rule leaves the trained
predictor. META is read off the votes, each table differs at its pre-update index only, and the shifts are
arithmetic. -/
theorem tournamentTrainUpdatesFromPreUpdateState : Obligations.TournamentTrainUpdatesFromPreUpdateState := by
  refine ⟨fun _ hop => decode_train hop, fun s t pc o hi ⟨_, _, hgct, ⟨hlht, _⟩, hlct⟩ => ?_⟩
  have hread_lht := Tournament.read_lht_train hlht pc o
  rw [histShift_eq_ite] at hread_lht
  simp only [← t.globalIndex_eq_mod, ← t.slot_eq]
  exact ⟨fun he => ⟨t.train pc o, exec_tournamentTrain he hi pc o, ⟨rfl, rfl, rfl, rfl, rfl, rfl⟩,
      Tournament.nextMeta_of_votes_agree, Tournament.nextMeta_of_local_right, Tournament.nextMeta_of_global_right,
      read_trainCounter hgct t.globalIndex o, histShift_eq_ite _ _ _, read_trainCounter hlct (t.pattern pc) o,
      hread_lht⟩,
    fun he => exec_faulted (Instance.ne_unbuilt_of_tournament hi) he (.tournamentTrain pc o)⟩

/-- META climbs one code per training that the local vote wins, up to ST (44_tournament.md R177). -/
theorem Tournament.LocalWins.toNat_metaCtr_after {t : Tournament} {ts : List Training} (h : t.LocalWins ts) :
    (counterBits (t.after ts).metaCtr).toNat = min ((counterBits t.metaCtr).toNat + ts.length) 3 := by
  induction ts generalizing t with
  | nil =>
    have hcode : (counterBits t.metaCtr).toNat < 2 ^ 2 := (counterBits t.metaCtr).isLt
    exact (Nat.min_eq_left (by omega)).symm
  | cons x ts ih =>
    obtain ⟨hne, hlocal, hrest⟩ := h
    have hfirst : (t.train x.1 x.2).metaCtr = ctrNext t.metaCtr true :=
      Tournament.nextMeta_of_local_right hne hlocal
    have hafter : (counterBits (t.after (x :: ts)).metaCtr).toNat =
        min ((counterBits (t.train x.1 x.2).metaCtr).toNat + ts.length) 3 := ih hrest
    rw [hafter, hfirst, toNat_ctrNext_true, List.length_cons]
    omega

/-- Settles O57: META's code after the run decides its side, and the Taken side selects the local vote. -/
theorem metaConvergesToTheLocalVote : Obligations.MetaConvergesToTheLocalVote := by
  intro t ts h
  have hcode := h.toNat_metaCtr_after
  refine ⟨hcode, fun hlong pc => Tournament.choice_of_meta_taken (ctrPred_eq_true_iff.2 ?_),
    fun pc => Tournament.choice_of_meta_taken⟩
  rw [Ne, eq_snt_iff] at hlong
  omega

end Sys2Proof.Machine
end

section
/-! SUPPORT. The perceptron's score and training condition as arithmetic, and its two requests
(45_perceptron.md R200 to R208). -/

namespace Sys2Proof.Machine

theorem Instance.ne_unbuilt_of_perceptron {i : Instance} {p : Perceptron} (h : i = .perceptron p) : i ≠ .unbuilt :=
  built_ne_unbuilt (h ▸ rfl)

/-- Wrapping the summands along the way does not change the wrapped sum (00_scope.md R13). -/
theorem wrap32_wrap32_add (y z : Int) : wrap32 (wrap32 y + z) = wrap32 (y + z) := Int.bmod_add_bmod

/-- A fold that wraps after each addition gives the wrapped sum (45_perceptron.md R201). -/
theorem foldl_wrap32_add (z : Int) (terms : List Int) :
    terms.foldl (fun acc x => wrap32 (acc + x)) (wrap32 z) = wrap32 (z + terms.sum) := by
  induction terms generalizing z with
  | nil => rw [List.foldl_nil, List.sum_nil, add_zero]
  | cons x terms ih => rw [List.foldl_cons, wrap32_wrap32_add, ih, List.sum_cons, add_assoc]

/-- Settles O22: the fold is the wrapped sum of its terms, which their order does not change. -/
theorem scoreIsOrderIndependent : Obligations.ScoreIsOrderIndependent := by
  intro p pc terms hperm
  calc terms.foldl (fun acc x => wrap32 (acc + x)) (wrap32 0)
    _ = wrap32 (0 + terms.sum) := foldl_wrap32_add 0 terms
    _ = p.score pc := by rw [zero_add, hperm.sum_eq, Perceptron.score]

section
variable (p : Perceptron) (pc : Word) (o : BranchOutcome)

/-- The score as a sum over the slots (45_perceptron.md R201). -/
theorem Perceptron.score_eq_sum : p.score pc =
    wrap32 (∑ i ∈ Finset.range p.h.toNat, p.slotSign i * p.weight (p.bucket pc) i) := rfl

theorem Perceptron.trainCond_iff :
    p.trainCond pc o = true ↔ (p.score pc).sign ≠ pm o ∨ (p.score pc).natAbs < p.theta.toNat :=
  decide_eq_true_iff

theorem Perceptron.natAbs_score_le : (p.score pc).natAbs ≤ 2 ^ 31 := by
  obtain ⟨hlow, hhigh⟩ := wrap32_range (p.terms (p.bucket pc)).sum
  rw [Perceptron.score]
  omega

end

/-- An integer has the sign of an outcome where it is positive and the outcome Taken, or negative and NotTaken. -/
theorem sign_eq_pm_iff {z : Int} {o : BranchOutcome} :
    z.sign = pm o ↔ (0 < z ∧ o = true) ∨ (z < 0 ∧ o = false) := by
  cases o
  · simp [pm]
  · simp [pm]

/-- Settles O23: the training condition negated, with the sign spelled out and the magnitude bounded. -/
theorem trainingSkippedOnlyWhenRightAndConfident : Obligations.TrainingSkippedOnlyWhenRightAndConfident := by
  intro p pc o
  have hbound := p.natAbs_score_le pc
  refine ⟨?_, hbound, fun htheta => (p.trainCond_iff pc o).2 (.inr (by omega))⟩
  rw [← Bool.not_eq_true, Perceptron.trainCond_iff, not_or, not_not, not_lt, sign_eq_pm_iff]

/-- Settles O19: the operation code selects PREDICT, the scheme its perceptron rule, and that rule answers the sign
of the score on otherwise silent ports. -/
theorem perceptronPredictIsTheSignOfTheScore : Obligations.PerceptronPredictIsTheSignOfTheScore := by
  refine ⟨fun _ hop => decode_predict hop, fun s p pc hi => ⟨fun he => ?_,
    fun he => exec_faulted (Instance.ne_unbuilt_of_perceptron hi) he (.perceptronPredict pc)⟩⟩
  rw [exec_perceptronPredict he hi, Perceptron.pred, p.score_eq_sum]
  rfl

/-- A training leaves every row but the bucket's, and that one too where the condition fails
(45_perceptron.md R205, R206). -/
theorem Perceptron.row_train_of_untouched {p : Perceptron} {m b : Nat} (h : Table.wf p.w p.zeroRow m = true)
    {pc : Word} {o : BranchOutcome} (hb : b ≠ p.bucket pc ∨ ¬ p.trainCond pc o = true) :
    (p.train pc o).row b = p.row b := by
  show Table.read (if p.trainCond pc o = true then _ else _) p.zeroRow b = p.row b
  split
  · next hc => rw [Table.read_write h, if_neg (hb.resolve_right (not_not_intro hc)), Perceptron.row]
  · rfl

/-- Settles O20: the operation code selects TRAIN, the scheme its perceptron rule, and that rule leaves the trained
predictor, whose history is the shift as arithmetic and whose weights differ in the bucket's row only. -/
theorem perceptronTrainMovesOneRowAndShifts : Obligations.PerceptronTrainMovesOneRowAndShifts := by
  refine ⟨fun _ hop => decode_train hop, fun s p pc o hi ⟨_, _, hwf, _⟩ => ?_⟩
  have htrains := p.trainCond_iff pc o
  rw [p.score_eq_sum] at htrains
  refine ⟨fun he => ⟨p.train pc o, exec_perceptronTrain he hi pc o, ⟨rfl, rfl, rfl, rfl⟩,
      histShift_eq_ite p.phr o p.h.toNat, fun c i hc => ?_, fun i hlt hc => ?_⟩,
    fun he => exec_faulted (Instance.ne_unbuilt_of_perceptron hi) he (.perceptronTrain pc o)⟩
  · exact congrArg (·.getD i 0) (Perceptron.row_train_of_untouched hwf (hc.imp_right (mt htrains.1)))
  · exact (Perceptron.train_weight hwf hlt pc o (p.bucket pc)).trans (if_pos ⟨htrains.2 hc, rfl⟩)

/-- The product of two outcomes' signs is itself a sign, which no wrap changes. -/
theorem wrap32_pm_mul_pm (a b : BranchOutcome) : wrap32 (pm a * pm b) = pm a * pm b := by
  revert a b; decide

section
variable {p : Perceptron} {pc : Word}

theorem Perceptron.score_of_weights_zero (h : ∀ b i, p.weight b i = 0) : p.score pc = 0 := by
  simp [Perceptron.score_eq_sum, h, wrap32]

theorem Perceptron.pred_of_score_zero (h : p.score pc = 0) : p.pred pc = false := by
  rw [Perceptron.pred, h]; rfl

/-- The sign of a score of 0 is the sign of neither outcome (45_perceptron.md R204). -/
theorem Perceptron.trainCond_of_score_zero (h : p.score pc = 0) (o : BranchOutcome) : p.trainCond pc o = true :=
  (p.trainCond_iff pc o).2 (.inl (by rw [h]; cases o <;> decide))

end

/-- Settles O24: the score is 0, a tie, and from 0 each weight moves to the product of the two signs. -/
theorem perceptronFirstCall : Obligations.PerceptronFirstCall := by
  intro s p pc o hi he ⟨_, _, hwf, _⟩ _ hzero
  have hscore : p.score pc = 0 := Perceptron.score_of_weights_zero hzero
  have hc : p.trainCond pc o = true := Perceptron.trainCond_of_score_zero hscore o
  refine ⟨?_, hc, p.train pc o, exec_perceptronTrain he hi pc o, fun i hlt => ?_⟩
  · rw [exec_perceptronPredict he hi, Perceptron.pred_of_score_zero hscore]
    rfl
  · rw [Perceptron.train_weight hwf hlt, if_pos ⟨hc, rfl⟩, hzero, zero_add, Perceptron.slotSign, wrap32_pm_mul_pm]

end Sys2Proof.Machine
end

section
/-! SUPPORT. One slot and one bucket on a strictly alternating outcome (45_perceptron.md R209). -/

namespace Sys2Proof.Machine

section
variable {s : State} {p : Perceptron} (hi : s.inst = .perceptron p) (he : s.err = false) (pc : Word)
  (o : BranchOutcome)
include hi he

theorem runRequests_perceptronTrain : runRequests s [requestWord 2 o pc] =
    .next ([], { s with inst := .perceptron (p.train pc o), inbox := [], resp := none }) := by
  have hword : decode .perceptron (requestWord 2 o pc) = .perceptronTrain pc o :=
    decode_requestWord .perceptron 2 o pc
  exact runRequests_cons (by rw [hi]; rfl) (hword ▸ exec_perceptronTrain (s := s.offer []) he hi pc o) rfl

/-- One record, a PREDICT and then a TRAIN (70_reset_and_hazards.md R255). -/
theorem runRequests_perceptron_record : runRequests s [requestWord 1 false pc, requestWord 2 o pc] =
    .next ([p.pred pc], { s with inst := .perceptron (p.train pc o), inbox := [], resp := none }) := by
  have hpredict := runRequests_predict (r := requestWord 1 false pc) ⟨by rw [hi]; rfl, he⟩ (by simp [isPredict])
  rw [pcField_requestWord] at hpredict
  have hrecord := runRequests_append_of_next hpredict
    (runRequests_perceptronTrain (s := { s with inbox := [], resp := some (s.inst.predict pc) }) hi he pc o)
  rwa [hi] at hrecord

end

section
variable {p : Perceptron}

theorem Perceptron.bucket_of_one_bucket (hn : p.n = 1) (pc : Word) : p.bucket pc = 0 := by
  rw [Perceptron.bucket, hn]; exact Nat.mod_one _

theorem Perceptron.score_of_one_slot (hh : p.h = 1) (pc : Word) :
    p.score pc = wrap32 (p.slotSign 0 * p.weight (p.bucket pc) 0) := by
  simp [Perceptron.score_eq_sum, hh]

end

section
variable {o : BranchOutcome} {m : Nat}

theorem pm_mul_pos_iff : 0 < pm o * m ↔ o = true ∧ m ≠ 0 := by
  cases o <;> simp [pm, Nat.pos_iff_ne_zero]

theorem sign_pm_mul_eq_iff : (pm o * m).sign = pm o ↔ m ≠ 0 := by
  cases o <;> simp [pm, Nat.pos_iff_ne_zero]

theorem natAbs_pm_mul : (pm o * m).natAbs = m := by
  cases o <;> simp [pm]

theorem pm_mul_self : pm o * pm o = 1 := by cases o <;> rfl

theorem wrap32_pm_mul (h : m < 2 ^ 31) : wrap32 (pm o * m) = pm o * m := by
  have hm : (pm o * m).natAbs < 2 ^ 31 := natAbs_pm_mul ▸ h
  exact wrap32_of_range (by omega) (by omega)

end

/-- How far the weight has fallen after `k` records of the alternation: one a record, up to THETA, but at least
once. -/
def alternationFall (theta : Word) (k : Nat) : Nat := min k (max 1 theta.toNat)

theorem alternationFall_lt {theta : Word} (h : theta.toNat < 2 ^ 31) (k : Nat) : alternationFall theta k < 2 ^ 31 := by
  unfold alternationFall; omega

theorem alternationFall_eq_zero_iff {theta : Word} {k : Nat} : alternationFall theta k = 0 ↔ k = 0 := by
  unfold alternationFall; omega

/-- The fall is short of its end where the weight is still 0 or its magnitude below THETA. -/
theorem alternationFall_succ (theta : Word) (k : Nat) : alternationFall theta (k + 1) =
    alternationFall theta k +
      if alternationFall theta k = 0 ∨ alternationFall theta k < theta.toNat then 1 else 0 := by
  unfold alternationFall; split <;> omega

/-- A perceptron of one slot and one bucket after `k` records with outcomes T, N, T, N, …: the slot holds the last
outcome, and the weight has fallen. -/
structure Perceptron.Alternated (theta : Word) (p : Perceptron) (k : Nat) : Prop where
  h : p.h = 1
  n : p.n = 1
  threshold : p.theta = theta
  phr : p.phr = k % 2
  wf : Table.wf p.w p.zeroRow p.n.toNat = true
  weight : p.weight 0 0 = -(alternationFall theta k : Int)

theorem Perceptron.alternated_zero {theta : Word} {f : HashTable} : Perceptron.Alternated theta
    { h := 1, n := 1, theta := theta, percHash := f, phr := 0, w := [] } 0 where
  h := rfl
  n := rfl
  threshold := rfl
  phr := rfl
  wf := Table.wf_nil _ _
  weight := by rw [Perceptron.weight_of_nil rfl, alternationFall, Nat.zero_min]; rfl

section
variable {theta : Word} {p : Perceptron} {k : Nat} (hp : p.Alternated theta k) (htheta : theta.toNat < 2 ^ 31)
  (pc : Word)
include hp

/-- The slot holds the opposite of the outcome to come. -/
theorem Perceptron.Alternated.slotSign : p.slotSign 0 = -pm (k % 2 == 0) := by
  rw [Perceptron.slotSign, hp.phr, Nat.testBit_zero]
  obtain hk | hk := Nat.mod_two_eq_zero_or_one k <;> simp [hk, pm]

include htheta

/-- The score has the sign of the outcome to come, and the magnitude of the fall. -/
theorem Perceptron.Alternated.score : p.score pc = pm (k % 2 == 0) * alternationFall theta k := by
  rw [Perceptron.score_of_one_slot hp.h, Perceptron.bucket_of_one_bucket hp.n, hp.slotSign, hp.weight, neg_mul_neg,
    wrap32_pm_mul (alternationFall_lt htheta k)]

/-- The answer is the outcome to come, but for the first, a tie. -/
theorem Perceptron.Alternated.pred : p.pred pc = (decide (k ≠ 0) && decide (k % 2 = 0)) := by
  rw [Perceptron.pred, hp.score htheta, Bool.eq_iff_iff]
  simp [pm_mul_pos_iff, alternationFall_eq_zero_iff, and_comm]

theorem Perceptron.Alternated.trainCond : p.trainCond pc (k % 2 == 0) = true ↔
    alternationFall theta k = 0 ∨ alternationFall theta k < theta.toNat := by
  rw [Perceptron.trainCond_iff, hp.score htheta, hp.threshold, Ne, sign_pm_mul_eq_iff, natAbs_pm_mul, not_not]

/-- Each record's TRAIN keeps the account of the records, whether or not it moves the weight. -/
theorem Perceptron.Alternated.train : (p.train pc (k % 2 == 0)).Alternated theta (k + 1) where
  h := hp.h
  n := hp.n
  threshold := hp.threshold
  phr := by
    refine (histShift_eq_ite p.phr (k % 2 == 0) p.h.toNat).trans ?_
    rw [hp.h, hp.phr]
    change (2 * (k % 2) + _) % 2 = _
    simp only [beq_iff_eq]
    split <;> omega
  wf := Perceptron.train_w_wf hp.wf (by rw [hp.n]; decide) pc _
  weight := by
    have hfall := alternationFall_lt htheta k
    have hmove := hp.trainCond htheta pc
    rw [Perceptron.train_weight hp.wf (by rw [hp.h]; decide), Perceptron.bucket_of_one_bucket hp.n, hp.weight,
      hp.slotSign, mul_neg, pm_mul_self, alternationFall_succ]
    split
    · next hc => rw [if_pos (hmove.1 hc.1), wrap32_of_range (by omega) (by omega), Nat.cast_add, neg_add]; rfl
    · next hc => rw [if_neg fun hm => hc ⟨hmove.2 hm, rfl⟩, Nat.add_zero]

end

theorem alternation_succ (pc : Word) (n : Nat) : alternation pc (n + 1) =
    alternation pc n ++ [requestWord 1 false pc, requestWord 2 (n % 2 == 0) pc] := by
  rw [alternation, List.range_succ, List.flatMap_append, List.flatMap_singleton, alternation]

theorem runRequests_alternation {s : State} {theta : Word} {p : Perceptron} (hi : s.inst = .perceptron p)
    (he : s.err = false) (hp : p.Alternated theta 0) (htheta : theta.toNat < 2 ^ 31) (pc : Word) (n : Nat) :
    ∃ (t : State) (q : Perceptron), runRequests s (alternation pc n) =
        .next ((List.range n).map (fun k => decide (k ≠ 0) && decide (k % 2 = 0)), t) ∧
      t.inst = .perceptron q ∧ t.err = false ∧ q.Alternated theta n := by
  induction n with
  | zero => exact ⟨s.offer [], p, rfl, hi, he, hp⟩
  | succ n ih =>
    obtain ⟨t, q, hrun, hti, hte, hq⟩ := ih
    have hrecord := runRequests_perceptron_record hti hte pc (n % 2 == 0)
    rw [alternation_succ, List.range_succ, List.map_append, List.map_singleton, ← hq.pred htheta pc]
    exact ⟨_, _, runRequests_append_of_next hrun hrecord, rfl, hte, hq.train htheta pc⟩

/-- Settles O25: the reset builds the perceptron of no record, each record of the run adds one, and the answers and
the weight are read off. -/
theorem perceptronLearnsAlternation : Obligations.PerceptronLearnsAlternation := by
  intro c pc theta n hscheme hh hn ht htheta
  have hbuild : buildInstance c = some (.perceptron
      { h := 1, n := 1, theta := theta, percHash := c.percHash, phr := 0, w := [] }) := by
    simp only [buildInstance, hscheme]
    exact buildPerceptron_eq_some.2 ⟨1, 1, theta, ⟨hh, hn, ht⟩, by decide, rfl⟩
  obtain ⟨t, p, hrun, hi, he, hp⟩ := runRequests_alternation (s := State.reset.applyReset c)
    (by rw [State.applyReset_some _ hbuild]) (by rw [State.applyReset_some _ hbuild])
    Perceptron.alternated_zero htheta pc n
  exact ⟨t, p, hrun, hi, he, hp.weight⟩

end Sys2Proof.Machine
end

section
/-! SUPPORT. The indices a request forms (60_exceptions.md R234), and the configurations a reset accepts (R232). -/

namespace Sys2Proof.Machine

theorem Perceptron.bucket_lt {p : Perceptron} (h : p.Sound) (pc : Word) : p.bucket pc < p.n.toNat := by
  obtain ⟨⟨-, hn⟩, -⟩ := h
  exact Nat.mod_lt _ hn

/-- Settles O26: a mask or a remainder bounds each index, and the invariant bounds the pattern read from the LHT. -/
theorem indicesAreInRange : Obligations.IndicesAreInRange := fun pc =>
  ⟨fun g => g.index_lt pc, fun t ht => ⟨t.globalIndex_lt, t.slot_lt pc, t.pattern_lt ht pc⟩,
    fun _ hp => Perceptron.bucket_lt hp pc⟩

/-- Settles O38: the legal configurations are those a reset builds from; the check of each scheme, read out. -/
theorem configurationCheck : Obligations.ConfigurationCheck := by
  intro c
  rw [buildInstance_isSome]
  rcases hs : c.scheme with _ | sch
  · simp [Config.wellFormed, hs]
  · cases sch <;> simp only [Config.wellFormed, hs, Bool.and_eq_true, Config.given_iff, Option.isSome_iff_exists]
    case static => simp
    case gshare => simp
    case tournament =>
      simp only [decide_eq_true_eq, Option.some.injEq, reduceCtorEq, false_and, false_or, or_false, true_and]
      exact ⟨
        fun ⟨⟨⟨g, eg, hg⟩, ⟨l, el, hl⟩⟩, ⟨p, ep, hp⟩⟩ => ⟨g, l, p, eg, el, ep, hg, hl, hp⟩,
        fun ⟨g, l, p, eg, el, ep, hg, hl, hp⟩ => ⟨⟨⟨g, eg, hg⟩, ⟨l, el, hl⟩⟩, ⟨p, ep, hp⟩⟩⟩
    case perceptron =>
      simp only [decide_eq_true_eq, Option.some.injEq, reduceCtorEq, false_and, false_or, and_true, true_and]
      exact ⟨
        fun ⟨⟨⟨h, eh, hh⟩, ⟨n, en, hn⟩⟩, ht⟩ => ⟨ht, h, n, eh, en, hh, hn⟩,
        fun ⟨ht, h, n, eh, en, hh, hn⟩ => ⟨⟨⟨h, eh, hh⟩, ⟨n, en, hn⟩⟩, ht⟩⟩

end Sys2Proof.Machine
end

section
/-! SUPPORT. Fault entry (60_exceptions.md R235), the requests that raise no fault (R230), and the refusal of every
request while faulted (R236). -/

namespace Sys2Proof.Machine

variable {s : State}

theorem State.raise_of_err (f : FaultClass) (he : s.err = true) : s.raise f = s := if_pos he

theorem State.silent_raise (s : State) (f : FaultClass) : s.silent.raise f = (s.raise f).silent := by
  cases he : s.err with
  | false => rw [State.raise_of_ok f he, State.raise_of_ok (s := s.silent) f he]; rfl
  | true => rw [State.raise_of_err f he, State.raise_of_err (s := s.silent) f he]

/-- The reserved request in a block that takes requests (60_exceptions.md R233). -/
theorem exec_reserved_ready (hs : s.Ready) : exec .reserved s = .next (s.raise .opFault).silent := by
  obtain ⟨hbuilt, he⟩ := hs
  rw [exec_reserved he (Instance.built_ne_unbuilt hbuilt), State.silent_raise]

/-- Settles O12: the operation code decodes to the reserved request, whose rule is the entry of OpFault. -/
theorem reservedRequestRaisesOpFault : Obligations.ReservedRequestRaisesOpFault := by
  refine ⟨fun _ _ h => decode_reserved h, fun s hs => ?_⟩
  have ⟨_, he⟩ := hs
  rw [exec_reserved_ready hs, State.raise_of_ok _ he]
  rfl

/-- Settles O31: fault entry on a block that is not faulted, and on one that is. -/
theorem faultEntryKeepsTheFirstFault : Obligations.FaultEntryKeepsTheFirstFault := fun s =>
  ⟨fun hs => ⟨_, exec_reserved_ready hs, rfl, s.raise_inst .opFault⟩,
    fun he => ⟨State.raise_of_ok .cfgFault he, State.raise_of_ok .opFault he⟩,
    fun he f => State.raise_of_err f he⟩

/-- A request word consumed by a faulted block, with predictor state or without. -/
theorem step_request_faulted {req : Request} {rest : List PortEvent} (hb : s.inbox = .request req :: rest)
    (hi : s.inst ≠ .unbuilt) (he : s.err = true) : step s = .next { s with inbox := rest, resp := none } := by
  rcases s.inst.cases_scheme with hu | ⟨c, hc⟩ | ⟨sch, hsch⟩
  · exact absurd hu hi
  · exact step_request_invalid hb hc
  · rw [step_request_scheme hb hsch]
    exact exec_faulted (s := { s with inbox := rest }) hi he _

/-- A list of requests consumed by a faulted block: no answer, and only the ports change. -/
theorem runRequests_of_err (hi : s.inst ≠ .unbuilt) (he : s.err = true) (reqs : List Request) :
    ∃ p, runRequests s reqs = .next ([], { s with inbox := [], resp := p }) := by
  induction reqs generalizing s with
  | nil => exact ⟨s.resp, rfl⟩
  | cons r rest ih =>
    have hstep := step_request_faulted (s := s.offer (r :: rest)) rfl hi he
    obtain ⟨p, hp⟩ := ih (s := { s with inbox := rest.map .request, resp := none }) hi he
    exact ⟨p, runRequests_cons_of_step hstep rfl hp⟩

/-- Settles O32, for an instruction, for the next word and for a list of words. -/
theorem faultedBlockRefusesEveryRequest : Obligations.FaultedBlockRefusesEveryRequest := by
  intro s hi he
  refine ⟨exec_faulted hi he, fun _ _ hb => step_request_faulted hb hi he, fun reqs => ?_⟩
  obtain ⟨_, hrun⟩ := runRequests_of_err hi he reqs
  exact ⟨_, hrun, rfl, he, rfl⟩

/-- The operation code alone makes a word the reserved request, in every scheme (30_encoding.md R71, R76). -/
theorem decode_eq_reserved_iff_isReserved {sch : Scheme} {req : Request} :
    decode sch req = .reserved ↔ isReserved req = true :=
  decode_eq_reserved_iff.trans beq_iff_eq.symm

/-- A request that takes `err` from 0 to 1 is the reserved one, and it leaves the code of OpFault. -/
theorem exec_sets_err {i : Instr} {t : State} (he : s.err = false) (h : exec i s = .next t) (ht : t.err = true) :
    i = .reserved ∧ t.errCode = 2 := by
  obtain ⟨-, ⟨he', -⟩ | ⟨-, heff⟩⟩ := exec_next h
  · cases he.symm.trans he'
  · by_cases hres : i = .reserved
    · subst hres
      cases heff
      rw [State.raise_of_ok (s := s.silent) _ he]
      exact ⟨rfl, rfl⟩
    · obtain ⟨herr, -⟩ := heff.status_eq hres
      cases (herr.symm.trans ht).symm.trans he

/-- Settles O33, by what each event can do to a block with `err = 0`. -/
theorem onlyTwoFaultClassesSetErr : Obligations.OnlyTwoFaultClassesSetErr := by
  intro s t h he ht
  obtain ⟨-, rfl⟩ | ⟨c, q, rest, hb, rfl⟩ | ⟨rest, hb, -⟩ |
    ⟨req, rest, hb, ⟨c, -, rfl⟩ | ⟨sch, -, hx⟩⟩ := step_next h
  · cases he.symm.trans ht
  · refine .inl ⟨c, q, rest, hb, ?_⟩
    cases hc : buildInstance c with
    | none => exact ⟨buildInstance_eq_none_iff.1 hc, by rw [State.applyReset_none _ hc]⟩
    | some j => simp [State.applyReset_some _ hc] at ht
  · exact .inr (.inr ⟨rest, hb⟩)
  · cases he.symm.trans ht
  · obtain ⟨hres, hcode⟩ := exec_sets_err (s := { s with inbox := rest }) he hx ht
    exact .inr (.inl ⟨req, rest, hb, decode_eq_reserved_iff_isReserved.1 hres, hcode⟩)

/-- The TRAIN of the block's own scheme: it completes, without an answer. -/
theorem exec_decodeTrain {sch : Scheme} (hi : s.inst.scheme = some sch) (he : s.err = false) (pc : Word)
    (o : BranchOutcome) : ∃ i, exec (decodeTrain sch pc o) s = .next (s.silent.setInst i) := by
  cases hs : s.inst with
  | unbuilt | invalid c => rw [hs] at hi; cases hi
  | static => rw [hs] at hi; cases hi; exact ⟨s.inst, exec_staticTrain he hs pc o⟩
  | gshare g => rw [hs] at hi; cases hi; exact ⟨_, exec_gshareTrain he hs pc o⟩
  | tournament t => rw [hs] at hi; cases hi; exact ⟨_, exec_tournamentTrain he hs pc o⟩
  | perceptron p => rw [hs] at hi; cases hi; exact ⟨_, exec_perceptronTrain he hs pc o⟩

/-- Every word but a reserved one completes in a block that takes requests, and a PREDICT alone answers. -/
theorem exec_decode_ready {sch : Scheme} {req : Request} (hi : s.inst.scheme = some sch) (he : s.err = false)
    (hr : isReserved req = false) :
    ∃ t, exec (decode sch req) s = .next t ∧ (t.resp ≠ none ↔ isPredict req = true) := by
  rcases opField_cases req with hop | hop | hop | hop
  · have hbuilt : s.inst ≠ .unbuilt := Instance.built_ne_unbuilt (by simp [hi])
    exact ⟨_, decode_nop hop ▸ exec_nop he hbuilt, by simp [isPredict, hop]⟩
  · exact ⟨_, decode_predict hop ▸ exec_decodePredict hi he _, by simp [isPredict, hop]⟩
  · obtain ⟨i, hx⟩ := exec_decodeTrain hi he (pcField req) (oField req)
    exact ⟨_, decode_train hop ▸ hx, by simp [isPredict, hop]⟩
  · simp [isReserved, hop] at hr

/-- Settles O35: the word runs by its operation code; the rest is the frame of a request that is not reserved. -/
theorem healthyBlockNeverFaultsOnAnOperation : Obligations.HealthyBlockNeverFaultsOnAnOperation := by
  intro s req rest ⟨hscheme, he⟩ hb hr
  obtain ⟨sch, hi⟩ := Option.isSome_iff_exists.1 hscheme
  obtain ⟨t, hx, hresp⟩ := exec_decode_ready (s := { s with inbox := rest }) hi he hr
  have hne : decode sch req ≠ .reserved := fun h =>
    Bool.eq_false_iff.1 hr (decode_eq_reserved_iff_isReserved.1 h)
  obtain ⟨-, ⟨he', -⟩ | ⟨-, heff⟩⟩ := exec_next hx
  · cases he.symm.trans he'
  · obtain ⟨herr, hcode⟩ := heff.status_eq hne
    exact ⟨t, (step_request_scheme hb hi).trans hx, ⟨heff.scheme_eq ▸ hscheme, herr.trans he⟩, hcode,
      heff.inbox_eq, hresp⟩

end Sys2Proof.Machine
end

section
/-! SUPPORT. A loss of power, and a step with nothing pending (60_exceptions.md R243, 70_reset_and_hazards.md
R251). -/

namespace Sys2Proof.Machine

/-- What a reset leaves depends on the configuration, on what is pending and on the model's counter alone
(70_reset_and_hazards.md R250). -/
theorem State.applyReset_congr {s t : State} (hb : s.inbox = t.inbox) (hp : s.powerUps = t.powerUps) (c : Config) :
    s.applyReset c = t.applyReset c := by
  cases hc : buildInstance c with
  | none => rw [State.applyReset_none _ hc, State.applyReset_none _ hc, hb, hp]
  | some i => rw [State.applyReset_some _ hc, State.applyReset_some _ hc, hb, hp]

/-- Settles O42: no instance is left, and a reset does not look at what is gone. -/
theorem powerLossNeedsAReset : Obligations.PowerLossNeedsAReset := fun _ _ hb =>
  ⟨_, step_powerLoss hb, State.losePower_inst _, State.losePower_resp _, State.losePower_inbox _,
    fun _ => step_request_unbuilt rfl rfl, State.applyReset_congr rfl rfl⟩

/-- Settles O48: the idle step only clears the response ports. -/
theorem idleStepHoldsTheState : Obligations.IdleStepHoldsTheState := fun _ hb => step_nil hb

end Sys2Proof.Machine
end

section
/-! SUPPORT. What a reset discards, and where the machine stops (70_reset_and_hazards.md R250, R251, R253). -/

namespace Sys2Proof.Machine

variable {s : State}

/-- Settles O41: a reset does not look at the request offered with it, nor at what it discards. -/
theorem resetDiscardsEverything : Obligations.ResetDiscardsEverything := by
  intro s s' c q q' rest hb hb' hp
  have hsame := State.applyReset_congr (s := { s' with inbox := rest }) (t := { s with inbox := rest }) rfl hp c
  rw [step_reset_event hb, step_reset_event hb', hsame]

/-- Every instruction begins by being taken, by a rule of its own. -/
theorem exec_eq_take (i : Instr) : ∃ run, ∀ s, exec i s = s.take run := by
  cases i <;> simp only [exec, execNop, execReserved, execStaticPredict, execStaticTrain, execGsharePredict,
    execGshareTrain, execTournamentPredict, execTournamentTrain, execPerceptronPredict, execPerceptronTrain] <;>
    exact ⟨_, fun _ => rfl⟩

/-- Without an instance every request is stuck (70_reset_and_hazards.md R251). -/
theorem exec_unbuilt (hi : s.inst = .unbuilt) (i : Instr) : exec i s = .fault .requestBeforeReset := by
  obtain ⟨run, htake⟩ := exec_eq_take i
  rw [htake, State.take_unbuilt hi]

/-- Every word completes in an instance of a scheme, faulted or not: a PREDICT changes the ports only, and nothing
else answers. -/
theorem exec_decode_completes {sch : Scheme} (hi : s.inst.scheme = some sch) (req : Request) :
    ∃ t, exec (decode sch req) s = .next t ∧ (isPredict req = true → t.silent = s.silent) ∧
      (isPredict req = false → t.resp = none) := by
  have hbuilt : s.inst ≠ .unbuilt := Instance.built_ne_unbuilt (by simp [hi])
  cases he : s.err with
  | true => exact ⟨_, exec_faulted hbuilt he _, fun _ => rfl, fun _ => rfl⟩
  | false =>
    rcases opField_cases req with hop | hop | hop | hop
    · exact ⟨s.silent, decode_nop hop ▸ exec_nop he hbuilt, fun _ => rfl, fun _ => rfl⟩
    · exact ⟨s.respond (s.inst.predict (pcField req)), decode_predict hop ▸ exec_decodePredict hi he _,
        fun _ => rfl, by simp [isPredict, hop]⟩
    · obtain ⟨i, hx⟩ := exec_decodeTrain hi he (pcField req) (oField req)
      exact ⟨_, decode_train hop ▸ hx, by simp [isPredict, hop], fun _ => rfl⟩
    · exact ⟨_, decode_reserved hop ▸ exec_reserved he hbuilt, by simp [isPredict, hop], fun _ => by simp⟩

/-- After the first reset no request stops the machine (70_reset_and_hazards.md R251). -/
theorem step_request_completes {req : Request} {rest : List PortEvent} (hb : s.inbox = .request req :: rest)
    (hi : s.inst ≠ .unbuilt) : ∃ t, step s = .next t := by
  rcases s.inst.cases_scheme with hu | ⟨c, hc⟩ | ⟨sch, hsch⟩
  · exact absurd hu hi
  · exact ⟨_, step_request_invalid hb hc⟩
  · obtain ⟨t, hx, -⟩ := exec_decode_completes (s := { s with inbox := rest }) hsch req
    exact ⟨t, (step_request_scheme hb hsch).trans hx⟩

/-- A request is next, and there is no instance to take it (70_reset_and_hazards.md R251). -/
def State.Stuck (s : State) : Prop := s.inst = .unbuilt ∧ ∃ req rest, s.inbox = .request req :: rest

theorem State.Stuck.step (h : s.Stuck) : step s = .fault .requestBeforeReset := by
  obtain ⟨hi, req, rest, hb⟩ := h
  exact step_request_unbuilt hb hi

theorem step_completes_of_not_stuck (h : ¬ s.Stuck) : ∃ t, step s = .next t := by
  rcases hb : s.inbox with _ | ⟨req | ⟨c, q⟩ | _, rest⟩
  · exact ⟨_, step_nil hb⟩
  · exact step_request_completes hb fun hi => h ⟨hi, req, rest, hb⟩
  · exact ⟨_, step_reset_event hb⟩
  · exact ⟨_, step_powerLoss hb⟩

/-- Settles O36: a stuck state faults, and any other has a next state. -/
theorem stuckExactlyBeforeReset : Obligations.StuckExactlyBeforeReset := by
  intro s
  by_cases h : s.Stuck
  · refine ⟨fun f => ⟨fun hf => ?_, fun ⟨_, _, hf⟩ => hf ▸ h.step⟩, fun r hr => ?_, exec_unbuilt⟩
    · obtain ⟨hi, hreq⟩ := h
      exact ⟨hi, hreq, by cases f; rfl⟩
    · cases h.step.symm.trans hr
  · obtain ⟨t, ht⟩ := step_completes_of_not_stuck h
    refine ⟨fun f => ⟨fun hf => ?_, fun ⟨hi, hreq, _⟩ => absurd ⟨hi, hreq⟩ h⟩, fun r hr => ?_, exec_unbuilt⟩
    · cases ht.symm.trans hf
    · cases ht.symm.trans hr

end Sys2Proof.Machine
end

section
/-! SUPPORT. A run without its PREDICTs (70_reset_and_hazards.md R257): the two runs keep states that differ in the
answer on the response ports alone, and no later step looks at that answer. -/

namespace Sys2Proof.Machine

variable {s s' : State}

theorem State.take_silent (s : State) (run : State → Result) : s.silent.take run = s.take run := rfl

/-- No request looks at the answer of the step before (10_state.md R22). -/
theorem exec_silent (s : State) (i : Instr) : exec i s.silent = exec i s := by
  obtain ⟨run, htake⟩ := exec_eq_take i
  rw [htake, htake, State.take_silent]

/-- Nor does a step on a request. -/
theorem step_request_silent {req : Request} {rest : List PortEvent} (hb : s.inbox = .request req :: rest) :
    step s.silent = step s := by
  rcases s.inst.cases_scheme with hi | ⟨c, hi⟩ | ⟨sch, hi⟩
  · rw [step_request_unbuilt hb hi, step_request_unbuilt (s := s.silent) hb hi]
  · rw [step_request_invalid hb hi, step_request_invalid (s := s.silent) hb hi]
    rfl
  · rw [step_request_scheme hb hi, step_request_scheme (s := s.silent) hb hi]
    exact exec_silent { s with inbox := rest } _

theorem runRequests_cons_silent (s : State) (r : Request) (rest : List Request) :
    runRequests s.silent (r :: rest) = runRequests s (r :: rest) := by
  have hstep : step (s.silent.offer (r :: rest)) = step (s.offer (r :: rest)) :=
    step_request_silent (s := s.offer (r :: rest)) rfl
  simp only [runRequests, List.length_cons, observe, hstep]

/-- Blocks that differ in the answer on the response ports alone run alike. -/
theorem runRequests_of_silent_eq {reqs : List Request} {a : List BranchOutcome} {u : State}
    (h : s'.silent = s.silent) (hrun : runRequests s reqs = .next (a, u)) :
    ∃ u', runRequests s' reqs = .next (a, u') ∧ u'.silent = u.silent := by
  cases reqs with
  | nil =>
    cases hrun
    exact ⟨_, rfl, congrArg (State.offer · []) h⟩
  | cons r rest =>
    refine ⟨u, ?_, rfl⟩
    rw [← runRequests_cons_silent, h, runRequests_cons_silent, hrun]

/-- No request changes the scheme (10_state.md R24). -/
theorem exec_scheme_eq {i : Instr} {t : State} (h : exec i s = .next t) : t.inst.scheme = s.inst.scheme := by
  obtain ⟨-, ⟨-, rfl⟩ | ⟨-, heff⟩⟩ := exec_next h
  · rfl
  · exact heff.scheme_eq

theorem State.fields_eq_of_silent_eq (h : s'.silent = s.silent) :
    s'.inst = s.inst ∧ s'.err = s.err ∧ s'.errCode = s.errCode :=
  have hinst : s'.silent.inst = s.silent.inst := congrArg State.inst h
  have herr : s'.silent.err = s.silent.err := congrArg State.err h
  have hcode : s'.silent.errCode = s.silent.errCode := congrArg State.errCode h
  ⟨hinst, herr, hcode⟩

/-- One request in an instance of a scheme: a PREDICT changes the ports only, and nothing else answers. -/
theorem runRequests_singleton (hs : s.inst.scheme.isSome = true) (r : Request) :
    ∃ a t, runRequests s [r] = .next (a, t) ∧ t.inst.scheme.isSome = true ∧
      (isPredict r = true → t.silent = (s.offer []).silent) ∧ (isPredict r = false → a = []) := by
  obtain ⟨sch, hi⟩ := Option.isSome_iff_exists.1 hs
  obtain ⟨t, hx, hpredict, hother⟩ := exec_decode_completes (s := s.offer []) hi r
  have hscheme : t.inst.scheme.isSome = true := by rw [exec_scheme_eq hx]; exact hs
  refine ⟨_, _, runRequests_cons hi hx rfl, hscheme, fun hr => ?_, fun hr => ?_⟩
  · exact congrArg (State.offer · []) (hpredict hr)
  · simp [hother hr]

/-- A list of requests and the list without its PREDICTs, in an instance of a scheme: both complete, the second
without an answer, and they leave the same block. -/
theorem runRequests_filter_predicts (hs : s.inst.scheme.isSome = true) (reqs : List Request) :
    ∃ a u u', runRequests s reqs = .next (a, u) ∧ u.inst.scheme.isSome = true ∧
      runRequests s (reqs.filter fun r => !isPredict r) = .next ([], u') ∧ u'.silent = u.silent := by
  induction reqs generalizing s with
  | nil => exact ⟨[], _, _, rfl, hs, rfl, rfl⟩
  | cons r rest ih =>
    obtain ⟨a, t, hone, ht, hpredict, hother⟩ := runRequests_singleton hs r
    obtain ⟨b, u, u', hrest, hu, hdropped, hsame⟩ := ih ht
    have hall : runRequests s (r :: rest) = .next (a ++ b, u) := runRequests_append_of_next hone hrest
    cases hr : isPredict r with
    | true =>
      obtain ⟨v, hv, hvu⟩ := runRequests_of_silent_eq (s' := s.offer []) (hpredict hr).symm hdropped
      have hv : runRequests s (rest.filter fun r => !isPredict r) = .next ([], v) := hv
      exact ⟨_, u, v, hall, hu, by simpa [hr] using hv, hvu.trans hsame⟩
    | false =>
      obtain rfl := hother hr
      have hkept := runRequests_append_of_next hone hdropped
      exact ⟨_, u, u', hall, hu, by simpa [hr] using hkept, hsame⟩

/-- Settles O52: the runs of the first list leave the same block but for the answer on the ports, which the later
list does not look at. -/
theorem droppingPredictsChangesNothing : Obligations.DroppingPredictsChangesNothing := by
  intro s reqs later hs
  obtain ⟨a, u, u', hrun, hu, hdropped, hsame⟩ := runRequests_filter_predicts hs reqs
  obtain ⟨b, t, -, hlater, -⟩ := runRequests_filter_predicts hu later
  obtain ⟨t', hlater', hsame'⟩ := runRequests_of_silent_eq hsame hlater
  obtain ⟨hinst, herr, hcode⟩ := State.fields_eq_of_silent_eq hsame
  exact ⟨a, b, u, u', t, t', hrun, hdropped, hinst, herr, hcode, runRequests_append_of_next hrun hlater,
    runRequests_append_of_next hdropped hlater', State.fields_eq_of_silent_eq hsame'⟩

end Sys2Proof.Machine
end
